-- ==== Sys2Proof/Word.lean ====
section
/-! DEFINITION. The word type of BVP: the value `<w, b>` of 10_state.md R20, and text.
A width-0 value can be written here and is no value of the spec (R21); `WellFormed.lean` says which are. -/

namespace Sys2Proof

/-- A value `<w, b>` (10_state.md R20): a width and that many bits, bit 0 the least significant (00_scope.md R11).
The bits are immutable data; equality is equality of the pair. -/
structure Value where
  /-- the width, fixed for the value's lifetime -/
  w : Nat
  /-- the bits, index 0 least significant -/
  b : BitVec w
  deriving DecidableEq, Repr

/-- The text a textual view returns (30_encoding.md R62, field `t`), as its characters in reading order. -/
abbrev Text := List Char

end Sys2Proof
end

