-- ==== Sys2Proof/Syntax.lean ====
section
/-! DEFINITION. The instruction set: one constructor of `Instr` per row of spec/opcode_table.json (30_encoding.md R66),
carrying the decoded operands; the request record those are read from (R61); and the names of the encoding tables of R63
and R64. The optional `size` is `none` where the request omits it (R67). -/

namespace Sys2Proof

/-- The 40 operations with their decoded operands (30_encoding.md R66, operands as R63 lists them for each format). -/
inductive Instr where
  /-- `zero`, 40_value.md R100, format K0 -/
  | zero (n : Nat)
  /-- `from_integer`, 40_value.md R101, format KI -/
  | fromInteger (k : Int) (n : Nat)
  /-- `from_bits`, 40_value.md R102, format KS -/
  | fromBits (seq : List Bool) (n : Nat)
  /-- `width`, 40_value.md R104, format V1 -/
  | width (a : Value)
  /-- `bit`, 40_value.md R105, format VI -/
  | bit (a : Value) (k : Int)
  /-- `as_unsigned`, 40_value.md R106, format V1 -/
  | asUnsigned (a : Value)
  /-- `as_signed`, 40_value.md R107, format V1 -/
  | asSigned (a : Value)
  /-- `as_hex`, 40_value.md R109, format V1 -/
  | asHex (a : Value)
  /-- `as_binary_text`, 40_value.md R110, format V1 -/
  | asBinaryText (a : Value)
  /-- `copy`, 40_value.md R113, format V1 -/
  | copy (a : Value)
  /-- `splice_low`, 40_value.md R115, format V2 -/
  | spliceLow (a b : Value)
  /-- `value_eq`, 40_value.md R111, format V2 -/
  | valueEq (a b : Value)
  /-- `value_lt`, 40_value.md R112, format V2 -/
  | valueLt (a b : Value)
  /-- `zero_extend`, 41_width_change.md R141, format W -/
  | zeroExtend (a : Value) (n : Nat)
  /-- `sign_extend`, 41_width_change.md R142, format W -/
  | signExtend (a : Value) (n : Nat)
  /-- `truncate`, 41_width_change.md R143, format W -/
  | truncate (a : Value) (n : Nat)
  /-- `add`, 42_arithmetic.md R154, format S2 -/
  | add (a b : Value) (size : Option Nat)
  /-- `sub`, 42_arithmetic.md R155, format S2 -/
  | sub (a b : Value) (size : Option Nat)
  /-- `mul`, 42_arithmetic.md R156, format S2 -/
  | mul (a b : Value) (size : Option Nat)
  /-- `udiv`, 42_arithmetic.md R157, format S2 -/
  | udiv (a b : Value) (size : Option Nat)
  /-- `urem`, 42_arithmetic.md R158, format S2 -/
  | urem (a b : Value) (size : Option Nat)
  /-- `sdiv`, 42_arithmetic.md R160, format S2 -/
  | sdiv (a b : Value) (size : Option Nat)
  /-- `srem`, 42_arithmetic.md R161, format S2 -/
  | srem (a b : Value) (size : Option Nat)
  /-- `bit_and`, 43_bitwise.md R181, format S2 -/
  | bitAnd (a b : Value) (size : Option Nat)
  /-- `bit_or`, 43_bitwise.md R182, format S2 -/
  | bitOr (a b : Value) (size : Option Nat)
  /-- `bit_xor`, 43_bitwise.md R183, format S2 -/
  | bitXor (a b : Value) (size : Option Nat)
  /-- `bit_not`, 43_bitwise.md R184, format S1 -/
  | bitNot (a : Value) (size : Option Nat)
  /-- `shift_left`, 44_shift.md R191, format S1 -/
  | shiftLeft (a : Value) (size : Option Nat)
  /-- `logical_shift_right`, 44_shift.md R192, format S1 -/
  | logicalShiftRight (a : Value) (size : Option Nat)
  /-- `arithmetic_shift_right`, 44_shift.md R193, format S1 -/
  | arithmeticShiftRight (a : Value) (size : Option Nat)
  /-- `eq`, 45_relational.md R201, format CMP -/
  | eq (a b : Value) (size : Option Nat)
  /-- `neq`, 45_relational.md R202, format CMP -/
  | neq (a b : Value) (size : Option Nat)
  /-- `ult`, 45_relational.md R203, format CMP -/
  | ult (a b : Value) (size : Option Nat)
  /-- `ule`, 45_relational.md R204, format CMP -/
  | ule (a b : Value) (size : Option Nat)
  /-- `ugt`, 45_relational.md R205, format CMP -/
  | ugt (a b : Value) (size : Option Nat)
  /-- `uge`, 45_relational.md R206, format CMP -/
  | uge (a b : Value) (size : Option Nat)
  /-- `slt`, 45_relational.md R207, format CMP -/
  | slt (a b : Value) (size : Option Nat)
  /-- `sle`, 45_relational.md R208, format CMP -/
  | sle (a b : Value) (size : Option Nat)
  /-- `sgt`, 45_relational.md R209, format CMP -/
  | sgt (a b : Value) (size : Option Nat)
  /-- `sge`, 45_relational.md R210, format CMP -/
  | sge (a b : Value) (size : Option Nat)
  deriving DecidableEq, Repr

/-- The names of the 40 operations, without operands: what the `op` field selects (R65, R66). -/
inductive Op where
  | zero
  | fromInteger
  | fromBits
  | width
  | bit
  | asUnsigned
  | asSigned
  | asHex
  | asBinaryText
  | copy
  | spliceLow
  | valueEq
  | valueLt
  | zeroExtend
  | signExtend
  | truncate
  | add
  | sub
  | mul
  | udiv
  | urem
  | sdiv
  | srem
  | bitAnd
  | bitOr
  | bitXor
  | bitNot
  | shiftLeft
  | logicalShiftRight
  | arithmeticShiftRight
  | eq
  | neq
  | ult
  | ule
  | ugt
  | uge
  | slt
  | sle
  | sgt
  | sge
  deriving DecidableEq, Repr

/-- The request record, 30_encoding.md R61. An operation reads only the fields its format lists (R63). -/
structure Request where
  /-- the operation select, the one bit-encoded field -/
  op : BitVec 8
  /-- the left, or only, value operand -/
  a : Value
  /-- the right value operand -/
  b : Value
  /-- `sz_en`: is an explicit size given? -/
  szEn : Bool
  /-- the explicit size, read only when `szEn` is set -/
  size : Nat
  /-- a width -/
  n : Nat
  /-- an integer operand or a bit index, of either sign -/
  k : Int
  /-- the bit sequence of `from_bits`, element 0 first -/
  seq : List Bool
  deriving DecidableEq, Repr

/-- The operand fields of a request (R61), `op` apart: every format reads `op`. -/
inductive Field where
  | a | b | szEn | size | n | k | seq
  deriving DecidableEq, Repr

/-- The ten formats of R63. -/
inductive Format where
  | K0 | KI | KS | V1 | VI | V2 | W | S1 | S2 | CMP
  deriving DecidableEq, Repr

/-- The result kinds of R63 and R66. -/
inductive ResultKind where
  | value | boolean | natural | integer | text
  deriving DecidableEq, Repr

/-- The seven assigned families of R64. -/
inductive Family where
  | construction | valueFunctions | widthChange | arithmetic | bitwise | shift | relational
  deriving DecidableEq, Repr

end Sys2Proof
end

