-- ==== Sys2Proof/Decode.lean ====
section
/-! DEFINITION. Decoding a request to an operation with its operands (30_encoding.md R63 to R70) and, after it, encoding one.
Only the `op` field is bit-encoded (R60); every other field is carried as what it is. -/

namespace Sys2Proof

/-- The op code of each operation, the table of R66. -/
def Op.code : Op → BitVec 8
  | .zero => 0x00#8
  | .fromInteger => 0x01#8
  | .fromBits => 0x02#8
  | .width => 0x10#8
  | .bit => 0x11#8
  | .asUnsigned => 0x12#8
  | .asSigned => 0x13#8
  | .asHex => 0x14#8
  | .asBinaryText => 0x15#8
  | .copy => 0x16#8
  | .spliceLow => 0x17#8
  | .valueEq => 0x18#8
  | .valueLt => 0x19#8
  | .zeroExtend => 0x20#8
  | .signExtend => 0x21#8
  | .truncate => 0x22#8
  | .add => 0x30#8
  | .sub => 0x31#8
  | .mul => 0x32#8
  | .udiv => 0x33#8
  | .urem => 0x34#8
  | .sdiv => 0x35#8
  | .srem => 0x36#8
  | .bitAnd => 0x40#8
  | .bitOr => 0x41#8
  | .bitXor => 0x42#8
  | .bitNot => 0x43#8
  | .shiftLeft => 0x50#8
  | .logicalShiftRight => 0x51#8
  | .arithmeticShiftRight => 0x52#8
  | .eq => 0x60#8
  | .neq => 0x61#8
  | .ult => 0x62#8
  | .ule => 0x63#8
  | .ugt => 0x64#8
  | .uge => 0x65#8
  | .slt => 0x66#8
  | .sle => 0x67#8
  | .sgt => 0x68#8
  | .sge => 0x69#8

/-- The rows of the table of R66, in its order. -/
def Op.all : List Op :=
  [.zero, .fromInteger, .fromBits, .width, .bit, .asUnsigned,
   .asSigned, .asHex, .asBinaryText, .copy, .spliceLow, .valueEq,
   .valueLt, .zeroExtend, .signExtend, .truncate, .add, .sub,
   .mul, .udiv, .urem, .sdiv, .srem, .bitAnd,
   .bitOr, .bitXor, .bitNot, .shiftLeft, .logicalShiftRight, .arithmeticShiftRight,
   .eq, .neq, .ult, .ule, .ugt, .uge,
   .slt, .sle, .sgt, .sge]

/-- The operation an `op` field selects: the row whose code equals all 8 bits (R65), none for an unassigned code (R70). -/
def Op.ofCode (c : BitVec 8) : Option Op := Op.all.find? fun o => o.code == c

/-- The format of each operation (R66). -/
def Op.format : Op → Format
  | .zero => .K0
  | .fromInteger => .KI
  | .fromBits => .KS
  | .width => .V1
  | .bit => .VI
  | .asUnsigned => .V1
  | .asSigned => .V1
  | .asHex => .V1
  | .asBinaryText => .V1
  | .copy => .V1
  | .spliceLow => .V2
  | .valueEq => .V2
  | .valueLt => .V2
  | .zeroExtend => .W
  | .signExtend => .W
  | .truncate => .W
  | .add => .S2
  | .sub => .S2
  | .mul => .S2
  | .udiv => .S2
  | .urem => .S2
  | .sdiv => .S2
  | .srem => .S2
  | .bitAnd => .S2
  | .bitOr => .S2
  | .bitXor => .S2
  | .bitNot => .S1
  | .shiftLeft => .S1
  | .logicalShiftRight => .S1
  | .arithmeticShiftRight => .S1
  | .eq => .CMP
  | .neq => .CMP
  | .ult => .CMP
  | .ule => .CMP
  | .ugt => .CMP
  | .uge => .CMP
  | .slt => .CMP
  | .sle => .CMP
  | .sgt => .CMP
  | .sge => .CMP

/-- The kind of result each operation returns when it succeeds (R66). -/
def Op.resultKind : Op → ResultKind
  | .zero => .value
  | .fromInteger => .value
  | .fromBits => .value
  | .width => .natural
  | .bit => .boolean
  | .asUnsigned => .natural
  | .asSigned => .integer
  | .asHex => .text
  | .asBinaryText => .text
  | .copy => .value
  | .spliceLow => .value
  | .valueEq => .boolean
  | .valueLt => .boolean
  | .zeroExtend => .value
  | .signExtend => .value
  | .truncate => .value
  | .add => .value
  | .sub => .value
  | .mul => .value
  | .udiv => .value
  | .urem => .value
  | .sdiv => .value
  | .srem => .value
  | .bitAnd => .value
  | .bitOr => .value
  | .bitXor => .value
  | .bitNot => .value
  | .shiftLeft => .value
  | .logicalShiftRight => .value
  | .arithmeticShiftRight => .value
  | .eq => .boolean
  | .neq => .boolean
  | .ult => .boolean
  | .ule => .boolean
  | .ugt => .boolean
  | .uge => .boolean
  | .slt => .boolean
  | .sle => .boolean
  | .sgt => .boolean
  | .sge => .boolean

/-- The family sub-field `op[7:4]` (R64). -/
def opFamilyNibble (c : BitVec 8) : BitVec 4 := c.extractLsb' 4 4

/-- The function sub-field `op[3:0]` (R64). -/
def opFunctionNibble (c : BitVec 8) : BitVec 4 := c.extractLsb' 0 4

/-- The family a family nibble names (R64): 0x7 to 0xF are unassigned. -/
def Family.ofNibble (f : BitVec 4) : Option Family :=
  match f.toNat with
  | 0 => some .construction
  | 1 => some .valueFunctions
  | 2 => some .widthChange
  | 3 => some .arithmetic
  | 4 => some .bitwise
  | 5 => some .shift
  | 6 => some .relational
  | _ => none

/-- The operand fields a format reads, `op` apart (R63). Of S1, S2 and CMP, `size` is read only when `sz_en` = 1 (R67). -/
def Format.fields : Format → List Field
  | .K0 => [.n]
  | .KI => [.k, .n]
  | .KS => [.seq, .n]
  | .V1 => [.a]
  | .VI => [.a, .k]
  | .V2 => [.a, .b]
  | .W => [.a, .n]
  | .S1 => [.a, .szEn, .size]
  | .S2 => [.a, .b, .szEn, .size]
  | .CMP => [.a, .b, .szEn, .size]

/-- The decoded `size` operand (R67): the explicit size when `sz_en` = 1, omitted otherwise, `size` then not read. -/
def Request.sizeOperand (r : Request) : Option Nat := if r.szEn then some r.size else none

/-- The operands of the selected operation, taken from the request fields its format lists (R63, R68). -/
def assemble (o : Op) (r : Request) : Instr :=
  match o with
  | .zero => .zero r.n
  | .fromInteger => .fromInteger r.k r.n
  | .fromBits => .fromBits r.seq r.n
  | .width => .width r.a
  | .bit => .bit r.a r.k
  | .asUnsigned => .asUnsigned r.a
  | .asSigned => .asSigned r.a
  | .asHex => .asHex r.a
  | .asBinaryText => .asBinaryText r.a
  | .copy => .copy r.a
  | .spliceLow => .spliceLow r.a r.b
  | .valueEq => .valueEq r.a r.b
  | .valueLt => .valueLt r.a r.b
  | .zeroExtend => .zeroExtend r.a r.n
  | .signExtend => .signExtend r.a r.n
  | .truncate => .truncate r.a r.n
  | .add => .add r.a r.b r.sizeOperand
  | .sub => .sub r.a r.b r.sizeOperand
  | .mul => .mul r.a r.b r.sizeOperand
  | .udiv => .udiv r.a r.b r.sizeOperand
  | .urem => .urem r.a r.b r.sizeOperand
  | .sdiv => .sdiv r.a r.b r.sizeOperand
  | .srem => .srem r.a r.b r.sizeOperand
  | .bitAnd => .bitAnd r.a r.b r.sizeOperand
  | .bitOr => .bitOr r.a r.b r.sizeOperand
  | .bitXor => .bitXor r.a r.b r.sizeOperand
  | .bitNot => .bitNot r.a r.sizeOperand
  | .shiftLeft => .shiftLeft r.a r.sizeOperand
  | .logicalShiftRight => .logicalShiftRight r.a r.sizeOperand
  | .arithmeticShiftRight => .arithmeticShiftRight r.a r.sizeOperand
  | .eq => .eq r.a r.b r.sizeOperand
  | .neq => .neq r.a r.b r.sizeOperand
  | .ult => .ult r.a r.b r.sizeOperand
  | .ule => .ule r.a r.b r.sizeOperand
  | .ugt => .ugt r.a r.b r.sizeOperand
  | .uge => .uge r.a r.b r.sizeOperand
  | .slt => .slt r.a r.b r.sizeOperand
  | .sle => .sle r.a r.b r.sizeOperand
  | .sgt => .sgt r.a r.b r.sizeOperand
  | .sge => .sge r.a r.b r.sizeOperand

/-- Why a request names no operation. -/
inductive DecodeError where
  /-- `op` holds one of the 216 unassigned codes (R70); the step answers IllegalOp -/
  | unassigned (op : BitVec 8)
  deriving DecidableEq, Repr

/-- Decoding, total on any request (R65): no field but `op` takes part in selecting the operation. -/
def decode (r : Request) : Except DecodeError Instr :=
  match Op.ofCode r.op with
  | none => .error (.unassigned r.op)
  | some o => .ok (assemble o r)

/-- A request with the given `op` whose operand fields are all zero: the one-bit zero value, 0, the empty sequence, and
`sz_en` = 0 (log entry 9). -/
def Request.blank (op : BitVec 8) : Request :=
  { op := op, a := ⟨1, 0#1⟩, b := ⟨1, 0#1⟩, szEn := false, size := 0, n := 0, k := 0, seq := [] }

/-- The operation of a decoded request. -/
def Instr.op : Instr → Op
  | .zero _ => .zero
  | .fromInteger _ _ => .fromInteger
  | .fromBits _ _ => .fromBits
  | .width _ => .width
  | .bit _ _ => .bit
  | .asUnsigned _ => .asUnsigned
  | .asSigned _ => .asSigned
  | .asHex _ => .asHex
  | .asBinaryText _ => .asBinaryText
  | .copy _ => .copy
  | .spliceLow _ _ => .spliceLow
  | .valueEq _ _ => .valueEq
  | .valueLt _ _ => .valueLt
  | .zeroExtend _ _ => .zeroExtend
  | .signExtend _ _ => .signExtend
  | .truncate _ _ => .truncate
  | .add _ _ _ => .add
  | .sub _ _ _ => .sub
  | .mul _ _ _ => .mul
  | .udiv _ _ _ => .udiv
  | .urem _ _ _ => .urem
  | .sdiv _ _ _ => .sdiv
  | .srem _ _ _ => .srem
  | .bitAnd _ _ _ => .bitAnd
  | .bitOr _ _ _ => .bitOr
  | .bitXor _ _ _ => .bitXor
  | .bitNot _ _ => .bitNot
  | .shiftLeft _ _ => .shiftLeft
  | .logicalShiftRight _ _ => .logicalShiftRight
  | .arithmeticShiftRight _ _ => .arithmeticShiftRight
  | .eq _ _ _ => .eq
  | .neq _ _ _ => .neq
  | .ult _ _ _ => .ult
  | .ule _ _ _ => .ule
  | .ugt _ _ _ => .ugt
  | .uge _ _ _ => .uge
  | .slt _ _ _ => .slt
  | .sle _ _ _ => .sle
  | .sgt _ _ _ => .sgt
  | .sge _ _ _ => .sge

/-- The request that asks for an operation: its code in `op` (R66), its operands in the fields of its format (R63), every
other field as `Request.blank` has it (it is not read, R61). -/
def encode (i : Instr) : Request :=
  match i with
  | .zero n => { Request.blank (Op.code .zero) with n := n }
  | .fromInteger k n => { Request.blank (Op.code .fromInteger) with k := k, n := n }
  | .fromBits seq n => { Request.blank (Op.code .fromBits) with seq := seq, n := n }
  | .width a => { Request.blank (Op.code .width) with a := a }
  | .bit a k => { Request.blank (Op.code .bit) with a := a, k := k }
  | .asUnsigned a => { Request.blank (Op.code .asUnsigned) with a := a }
  | .asSigned a => { Request.blank (Op.code .asSigned) with a := a }
  | .asHex a => { Request.blank (Op.code .asHex) with a := a }
  | .asBinaryText a => { Request.blank (Op.code .asBinaryText) with a := a }
  | .copy a => { Request.blank (Op.code .copy) with a := a }
  | .spliceLow a b => { Request.blank (Op.code .spliceLow) with a := a, b := b }
  | .valueEq a b => { Request.blank (Op.code .valueEq) with a := a, b := b }
  | .valueLt a b => { Request.blank (Op.code .valueLt) with a := a, b := b }
  | .zeroExtend a n => { Request.blank (Op.code .zeroExtend) with a := a, n := n }
  | .signExtend a n => { Request.blank (Op.code .signExtend) with a := a, n := n }
  | .truncate a n => { Request.blank (Op.code .truncate) with a := a, n := n }
  | .add a b size => { Request.blank (Op.code .add) with a := a, b := b, szEn := size.isSome, size := size.getD 0 }
  | .sub a b size => { Request.blank (Op.code .sub) with a := a, b := b, szEn := size.isSome, size := size.getD 0 }
  | .mul a b size => { Request.blank (Op.code .mul) with a := a, b := b, szEn := size.isSome, size := size.getD 0 }
  | .udiv a b size => { Request.blank (Op.code .udiv) with a := a, b := b, szEn := size.isSome, size := size.getD 0 }
  | .urem a b size => { Request.blank (Op.code .urem) with a := a, b := b, szEn := size.isSome, size := size.getD 0 }
  | .sdiv a b size => { Request.blank (Op.code .sdiv) with a := a, b := b, szEn := size.isSome, size := size.getD 0 }
  | .srem a b size => { Request.blank (Op.code .srem) with a := a, b := b, szEn := size.isSome, size := size.getD 0 }
  | .bitAnd a b size => { Request.blank (Op.code .bitAnd) with a := a, b := b, szEn := size.isSome, size := size.getD 0 }
  | .bitOr a b size => { Request.blank (Op.code .bitOr) with a := a, b := b, szEn := size.isSome, size := size.getD 0 }
  | .bitXor a b size => { Request.blank (Op.code .bitXor) with a := a, b := b, szEn := size.isSome, size := size.getD 0 }
  | .bitNot a size => { Request.blank (Op.code .bitNot) with a := a, szEn := size.isSome, size := size.getD 0 }
  | .shiftLeft a size => { Request.blank (Op.code .shiftLeft) with a := a, szEn := size.isSome, size := size.getD 0 }
  | .logicalShiftRight a size => { Request.blank (Op.code .logicalShiftRight) with a := a, szEn := size.isSome, size := size.getD 0 }
  | .arithmeticShiftRight a size => { Request.blank (Op.code .arithmeticShiftRight) with a := a, szEn := size.isSome, size := size.getD 0 }
  | .eq a b size => { Request.blank (Op.code .eq) with a := a, b := b, szEn := size.isSome, size := size.getD 0 }
  | .neq a b size => { Request.blank (Op.code .neq) with a := a, b := b, szEn := size.isSome, size := size.getD 0 }
  | .ult a b size => { Request.blank (Op.code .ult) with a := a, b := b, szEn := size.isSome, size := size.getD 0 }
  | .ule a b size => { Request.blank (Op.code .ule) with a := a, b := b, szEn := size.isSome, size := size.getD 0 }
  | .ugt a b size => { Request.blank (Op.code .ugt) with a := a, b := b, szEn := size.isSome, size := size.getD 0 }
  | .uge a b size => { Request.blank (Op.code .uge) with a := a, b := b, szEn := size.isSome, size := size.getD 0 }
  | .slt a b size => { Request.blank (Op.code .slt) with a := a, b := b, szEn := size.isSome, size := size.getD 0 }
  | .sle a b size => { Request.blank (Op.code .sle) with a := a, b := b, szEn := size.isSome, size := size.getD 0 }
  | .sgt a b size => { Request.blank (Op.code .sgt) with a := a, b := b, szEn := size.isSome, size := size.getD 0 }
  | .sge a b size => { Request.blank (Op.code .sge) with a := a, b := b, szEn := size.isSome, size := size.getD 0 }

/-- Does a request hold the fields that `i` is read from: the op code of `i`, and in each field of its format the operand
of `i`? The other fields may hold anything (R61). -/
def Request.carries (r : Request) (i : Instr) : Prop :=
  r.op = i.op.code ∧ ∀ f ∈ i.op.format.fields,
    match f with
    | .a => r.a = (encode i).a
    | .b => r.b = (encode i).b
    | .szEn => r.szEn = (encode i).szEn
    | .size => r.szEn = true → r.size = (encode i).size
    | .n => r.n = (encode i).n
    | .k => r.k = (encode i).k
    | .seq => r.seq = (encode i).seq

/-- The request of a row of spec/opcode_table.json: the row's `nbits` bits of `w` in `op`, every operand field zero. -/
def tableRequest (nbits w : Nat) : Request := Request.blank (BitVec.ofNat 8 (w % 2 ^ nbits))

/-- The instruction the decoder reads from a row's bits; none where it refuses, or where the bits do not fit in `op`. -/
def decodeTableWord (nbits w : Nat) : Option Instr :=
  if w % 2 ^ nbits < 256 then (decode (tableRequest nbits w)).toOption else none

end Sys2Proof
end

