-- ==== Sys2Proof/Config.lean ====
section
/-! DEFINITION. The parameters an implementation fixes (00_scope.md R8). `Config` holds the two that decide whether and
how a request is answered; the two that are left wholly open by the spec are constants without a body. -/

namespace Sys2Proof

/-- FROM_INT_UNSIGNED_BAND (40_value.md R101, decision D8): whether `from_integer` takes an integer from 2^(n-1) to 2^n - 1. -/
inductive Band where
  /-- the default: the band is accepted -/
  | accept
  /-- the other legal setting: the band fails with RangeError -/
  | reject
  deriving DecidableEq, Repr

/-- The parameters of one instance, fixed when it is built; no request reads or writes them (10_state.md R26). -/
structure Config where
  /-- WMAX (00_scope.md R7, decision D7): the largest width the instance carries, `none` for unbounded -/
  wmax : Option Nat
  /-- FROM_INT_UNSIGNED_BAND -/
  band : Band
  deriving DecidableEq, Repr

/-- The instance State.reset describes: widths unbounded, the source's own reading (R7; DESIGN CHOICE, log entry 5), and
the band accepted, the spec's default (R8, D8; log entry 6). -/
def Config.standard : Config := { wmax := none, band := .accept }

/-- Does the instance carry values of width `w`? (R7: every width from 1 to WMAX; the lower bound is `Value.wf`'s.) -/
def Config.fits (c : Config) (w : Nat) : Bool :=
  match c.wmax with
  | none => true
  | some m => decide (w ≤ m)

/-- BIN_DELIM (40_value.md R110, decision D17, U3): the one delimiter character of `as_binary_text`. The spec leaves it
OPEN; nothing can evaluate it (log entry 7). -/
opaque Config.binDelim : Char

/-- HEX_FORMAT (40_value.md R109, decision D18, U2): the text of `as_hex`, a total function of the width and the bits
about which the spec says nothing else. OPEN; nothing can evaluate it (log entry 8). -/
opaque Config.hexFormat : (w : Nat) → BitVec w → Text

end Sys2Proof
end

