-- ==== Sys2Proof/Machine/State.lean ====
section
/-! DEFINITION. What a step reads and writes. The spec gives the block no state (10_state.md R22 to R29): the fields below
are the wires of its boundary (30_encoding.md R61, R62) and the parameters of the instance (00_scope.md R8), log entry 1. -/

namespace Sys2Proof.Machine

/-- The failure kinds (60_exceptions.md R241). A failure is an answer, it carries no payload (R250). -/
inductive FailureKind where
  /-- R242: integer, sequence or zero width out of range -/
  | rangeError
  /-- R243: operand widths disagree, or `size` above the width -/
  | widthMismatchError
  /-- R244: an extension that does not widen, a truncation that does not narrow -/
  | directionError
  /-- R245: the low `s_eff` bits of a divisor are zero -/
  | divisionByZeroError
  /-- R247: a bit index outside the value -/
  | indexError
  /-- R248: an unassigned op code -/
  | illegalOp
  deriving DecidableEq, Repr

/-- The result of a request that succeeded, one constructor per result kind (30_encoding.md R62, R66). -/
inductive Result where
  /-- field `y` -/
  | value (y : Value)
  /-- field `f` -/
  | bool (f : Bool)
  /-- field `z`, a natural number -/
  | nat (z : Nat)
  /-- field `z`, an integer -/
  | int (z : Int)
  /-- field `t` -/
  | text (t : Text)
  deriving DecidableEq, Repr

/-- The response to one request: a result or a failure kind, never both and never neither (R62, R246). -/
inductive Response where
  /-- `err` = 0 -/
  | ok (r : Result)
  /-- `err` from 1 to 6; there is no result -/
  | failure (k : FailureKind)
  deriving DecidableEq, Repr

/-- The boundary of the block between two requests. -/
structure State where
  /-- the parameters of the instance; no request reads or writes them (10_state.md R26) -/
  config : Config
  /-- the requests the host has presented and not yet had answered, in the order it issues them (R90, R277) -/
  pending : List Request
  /-- the response to the last request answered; none before the first (R32) -/
  response : Option Response
  deriving DecidableEq, Repr

/-- The block has nothing to reset (10_state.md R32, 70_reset_and_hazards.md R270): no request is presented and none has
been answered. The parameters are those of the standard instance (log entries 1, 5 and 6). -/
def State.reset : State := { config := Config.standard, pending := [], response := none }

/-- The reasons a run stops with a fault. No operation and no step of the block raises one: a failing request is answered
(log entry 2). -/
inductive Fault where
  /-- Raised by a host SEQUENCE (Machine/Sequence.lean) whose line was answered with a failure: the sequence ends there
  with that kind (30_encoding.md R90, 70_reset_and_hazards.md R278, 60_exceptions.md R246). Safe: no later line is issued. -/
  | failure (k : FailureKind)
  deriving DecidableEq, Repr

/-- The requests a model gives no meaning (60_exceptions.md R258), by name. -/
inductive Refusal where
  /-- Raised by `exec`'s arm of an operation without a meaning. Safe. No arm raises it now. -/
  | notModelled (mnemonic : String)
  /-- Raised by every operation that reads a value operand, when one is no value of the spec: width 0 (R61, R258, U17).
  Safe: nothing can be proved of such a request. -/
  | illFormedOperand
  /-- Raised by every operation when an operand's width, a constructor's `n` or an extension's `n` is above WMAX (R7, R258,
  U5). Safe: no response is defined. -/
  | aboveWmax
  /-- Raised by `step` when no request is presented (10_state.md R32, U18). Safe: no rule says what the outputs show. -/
  | noRequest
  /-- Raised by a host SEQUENCE whose line names a result that no earlier line bound, or one whose kind does not fit the
  operand (30_encoding.md R90). Safe: the notation gives such a line no meaning. -/
  | unresolvedName
  deriving DecidableEq, Repr

end Sys2Proof.Machine
end

