-- ==== Sys2Proof/WellFormed.lean ====
section
/-! DEFINITION. Which decoded requests the block can be given at all (30_encoding.md R61, 60_exceptions.md R258): every
value operand is a value of the spec (10_state.md R21), and every width the request needs is one the instance carries
(00_scope.md R7). A request that fails a precondition of its operation is well formed: it is answered with a failure. -/

namespace Sys2Proof

/-- The value invariant, 10_state.md R21: width at least 1. That the number of bits is the width holds of the type. -/
def Value.wf (v : Value) : Bool := decide (1 ≤ v.w)

/-- The value operands of an operation, left first. -/
def Instr.operands : Instr → List Value
  | .zero _ => [] | .fromInteger _ _ => [] | .fromBits _ _ => []
  | .width a => [a] | .bit a _ => [a] | .asUnsigned a => [a] | .asSigned a => [a] | .asHex a => [a]
  | .asBinaryText a => [a] | .copy a => [a] | .spliceLow a b => [a, b] | .valueEq a b => [a, b]
  | .valueLt a b => [a, b]
  | .zeroExtend a _ => [a] | .signExtend a _ => [a] | .truncate a _ => [a]
  | .add a b _ => [a, b] | .sub a b _ => [a, b] | .mul a b _ => [a, b] | .udiv a b _ => [a, b]
  | .urem a b _ => [a, b] | .sdiv a b _ => [a, b] | .srem a b _ => [a, b]
  | .bitAnd a b _ => [a, b] | .bitOr a b _ => [a, b] | .bitXor a b _ => [a, b] | .bitNot a _ => [a]
  | .shiftLeft a _ => [a] | .logicalShiftRight a _ => [a] | .arithmeticShiftRight a _ => [a]
  | .eq a b _ => [a, b] | .neq a b _ => [a, b] | .ult a b _ => [a, b] | .ule a b _ => [a, b]
  | .ugt a b _ => [a, b] | .uge a b _ => [a, b] | .slt a b _ => [a, b] | .sle a b _ => [a, b]
  | .sgt a b _ => [a, b] | .sge a b _ => [a, b]

/-- The width a constructor or an extension asks for (R7: the widths, beside the operands', that WMAX bounds). The `n` of
`truncate` is not among them: above the operand's width it is a DirectionError (41_width_change.md R143). -/
def Instr.askedWidths : Instr → List Nat
  | .zero n => [n] | .fromInteger _ n => [n] | .fromBits _ n => [n]
  | .zeroExtend _ n => [n] | .signExtend _ n => [n]
  | .width _ => [] | .bit _ _ => [] | .asUnsigned _ => [] | .asSigned _ => [] | .asHex _ => []
  | .asBinaryText _ => [] | .copy _ => [] | .spliceLow _ _ => [] | .valueEq _ _ => [] | .valueLt _ _ => []
  | .truncate _ _ => []
  | .add _ _ _ => [] | .sub _ _ _ => [] | .mul _ _ _ => [] | .udiv _ _ _ => []
  | .urem _ _ _ => [] | .sdiv _ _ _ => [] | .srem _ _ _ => []
  | .bitAnd _ _ _ => [] | .bitOr _ _ _ => [] | .bitXor _ _ _ => [] | .bitNot _ _ => []
  | .shiftLeft _ _ => [] | .logicalShiftRight _ _ => [] | .arithmeticShiftRight _ _ => []
  | .eq _ _ _ => [] | .neq _ _ _ => [] | .ult _ _ _ => [] | .ule _ _ _ => []
  | .ugt _ _ _ => [] | .uge _ _ _ => [] | .slt _ _ _ => [] | .sle _ _ _ => []
  | .sgt _ _ _ => [] | .sge _ _ _ => []

/-- A request the instance can be given (R61, R7, R258). -/
def Instr.wf (c : Config) (i : Instr) : Bool :=
  i.operands.all Value.wf && i.operands.all (fun v => c.fits v.w) && i.askedWidths.all c.fits

end Sys2Proof
end

