-- ==== Sys2Proof/Machine/Ops.lean ====
section
/-! DEFINITION. The operations every meaning is written with: the notation of 00_scope.md section 5 on bit-strings, the
splice (40_value.md R114), `require` and `raise` of the pseudocode, and answering a request. -/

namespace Sys2Proof.Machine

/-- `u(x)`: the unsigned integer of a bit-string (00_scope.md section 5.1). -/
def unsigned {n : Nat} (x : BitVec n) : Nat := x.toNat

/-- Bit `i` of a bit-string, false outside it (00_scope.md R11). -/
def bitAt {n : Nat} (x : BitVec n) (i : Nat) : Bool := x.getLsbD i

/-- `s(x)`: the two's-complement integer of a bit-string, `u(x)` less 2^n when the top bit is set (R12). -/
def signed {n : Nat} (x : BitVec n) : Int := if bitAt x (n - 1) then (unsigned x : Int) - 2 ^ n else unsigned x

/-- `bv_n(k)`: the bit-string of width n whose unsigned integer is k mod 2^n, k of either sign. -/
def bv (n : Nat) (k : Int) : BitVec n := BitVec.ofInt n k

/-- `x[lo + len - 1 : lo]`: the bit-string of `len` bits from bit `lo` up. -/
def slice {w : Nat} (x : BitVec w) (lo len : Nat) : BitVec len := x.extractLsb' lo len

/-- `zext_n(x)`. -/
def zext {m : Nat} (n : Nat) (x : BitVec m) : BitVec n := bv n (unsigned x)

/-- `sext_n(x)`. -/
def sext {m : Nat} (n : Nat) (x : BitVec m) : BitVec n := bv n (signed x)

/-- `tdiv(x, y)`: the quotient rounded toward zero (decision D11). -/
def tdiv (x y : Int) : Int := Int.tdiv x y

/-- `trem(x, y) = x - y * tdiv(x, y)`. -/
def trem (x y : Int) : Int := x - y * tdiv x y

/-- `splice(x, r)`, 40_value.md R114: x's width, r in the low m bits, x's own bits above. The widths of the two parts add
up to x's for m ≤ x.w, which every caller has checked (log entry 10). -/
def splice (x : Value) {m : Nat} (r : BitVec m) : Value :=
  ⟨x.w, (slice x.b m (x.w - m) ++ r).setWidth x.w⟩

/-- `require c else raise k`: the failure k unless c holds, else the rest of the rule (00_scope.md section 5.2). -/
def require (c : Bool) (k : FailureKind) (rest : Response) : Response :=
  if c then rest else .failure k

/-- The state in which the response is `r`; nothing else changes (10_state.md R22). -/
def respond (st : State) (r : Response) : State := { st with response := some r }

/-- A request succeeds with result `r`: `err` = 0 and one result field (30_encoding.md R62). -/
def succeed (st : State) (r : Result) : State := respond st (.ok r)

/-- Taking a failure (60_exceptions.md R246, R253): the response carries the kind and nothing else; no state is saved, no
mode changes, control goes nowhere, and the next request is answered as any other (R254): there is nothing to return from. -/
def raise (st : State) (k : FailureKind) : State := respond st (.failure k)

/-- Answering a request: refused when a value operand is no value or a width is above WMAX (R258), before any other test
(log entry 11); else the response its operation gives. `operands` are the value operands the operation reads, `asked` the
width a constructor or an extension is asked for (00_scope.md R7). -/
def answer (st : State) (operands : List Value) (asked : List Nat) (r : Response) :
    Host.Outcome State Fault Refusal :=
  if operands.all Value.wf then
    if operands.all (fun v => st.config.fits v.w) && asked.all st.config.fits then .next (respond st r)
    else .refused .aboveWmax
  else .refused .illFormedOperand

end Sys2Proof.Machine
end

