-- ==== Sys2Proof/Machine/Operands.lean ====
section
/-! DEFINITION. The sized-operation contract (42_arithmetic.md R151 to R153): the effective size, its validation, the
selection of the low fields, the splice of the narrow result, and the failures in the order of 60_exceptions.md R252. -/

namespace Sys2Proof.Machine

/-- `s_eff`: the explicit size, else the width of the (left) operand (30_encoding.md R67). -/
def effectiveSize (w : Nat) (size : Option Nat) : Nat := size.getD w

/-- The low `n` bits of an operand, `a[n-1:0]` (42_arithmetic.md R152). -/
def low (a : Value) (n : Nat) : BitVec n := slice a.b 0 n

/-- The size tests of R152, shared by the unary and the binary operations: `size` above the width, then `size` = 0. -/
def requireSize (w : Nat) (size : Option Nat) (body : Nat → Response) : Response :=
  require (effectiveSize w size ≤ w) .widthMismatchError <|
  require (1 ≤ effectiveSize w size) .rangeError <|
  body (effectiveSize w size)

/-- R152 for a unary sized operation: validate, select `A`, go on with the rest of the rule. -/
def sizedUnary (a : Value) (size : Option Nat) (body : (n : Nat) → BitVec n → Response) : Response :=
  requireSize a.w size fun n => body n (low a n)

/-- R152 for a binary sized operation: equal widths first, then the size tests, then `A` and `B`. -/
def sizedBinary (a b : Value) (size : Option Nat) (body : (n : Nat) → BitVec n → BitVec n → Response) : Response :=
  require (a.w = b.w) .widthMismatchError <|
  requireSize a.w size fun n => body n (low a n) (low b n)

/-- `return splice(a, r)` (R153). -/
def returnSpliced (a : Value) {n : Nat} (r : BitVec n) : Response := .ok (.value (splice a r))

/-- `return bool e`. -/
def returnBool (e : Bool) : Response := .ok (.bool e)

/-- `require u(B) != 0 else raise DivisionByZeroError` (42_arithmetic.md R159), for the four divisions and remainders. -/
def requireDivisor {n : Nat} (divisor : BitVec n) (rest : Response) : Response :=
  require (unsigned divisor != 0) .divisionByZeroError rest

end Sys2Proof.Machine
end

