-- ==== Sys2Proof/Machine/Arithmetic.lean ====
section
/-! DEFINITION. The seven arithmetic operations (42_arithmetic.md R154 to R162). Each computes exactly in the integers and
keeps the low `s_eff` bits; none writes a flag (R150). -/

namespace Sys2Proof.Machine

/-- `add(a, b, size)`, R154. -/
def execAdd (a b : Value) (size : Option Nat) (st : State) : Host.Outcome State Fault Refusal :=
  answer st [a, b] [] <|
    sizedBinary a b size fun n A B => returnSpliced a (bv n ((unsigned A : Int) + unsigned B))

/-- `sub(a, b, size)`, R155: the left operand is the minuend. -/
def execSub (a b : Value) (size : Option Nat) (st : State) : Host.Outcome State Fault Refusal :=
  answer st [a, b] [] <|
    sizedBinary a b size fun n A B => returnSpliced a (bv n ((unsigned A : Int) - unsigned B))

/-- `mul(a, b, size)`, R156: the low half of the exact product. -/
def execMul (a b : Value) (size : Option Nat) (st : State) : Host.Outcome State Fault Refusal :=
  answer st [a, b] [] <|
    sizedBinary a b size fun n A B => returnSpliced a (bv n ((unsigned A : Int) * unsigned B))

/-- `udiv(a, b, size)`, R157: floor of the unsigned quotient. -/
def execUdiv (a b : Value) (size : Option Nat) (st : State) : Host.Outcome State Fault Refusal :=
  answer st [a, b] [] <|
    sizedBinary a b size fun n A B =>
      requireDivisor B <| returnSpliced a (bv n ((unsigned A / unsigned B : Nat) : Int))

/-- `urem(a, b, size)`, R158. -/
def execUrem (a b : Value) (size : Option Nat) (st : State) : Host.Outcome State Fault Refusal :=
  answer st [a, b] [] <|
    sizedBinary a b size fun n A B =>
      requireDivisor B <| returnSpliced a (bv n ((unsigned A % unsigned B : Nat) : Int))

/-- `sdiv(a, b, size)`, R160: rounded toward zero; the one overflow wraps (R162). -/
def execSdiv (a b : Value) (size : Option Nat) (st : State) : Host.Outcome State Fault Refusal :=
  answer st [a, b] [] <|
    sizedBinary a b size fun n A B =>
      requireDivisor B <| returnSpliced a (bv n (tdiv (signed A) (signed B)))

/-- `srem(a, b, size)`, R161: zero or the sign of the dividend. -/
def execSrem (a b : Value) (size : Option Nat) (st : State) : Host.Outcome State Fault Refusal :=
  answer st [a, b] [] <|
    sizedBinary a b size fun n A B =>
      requireDivisor B <| returnSpliced a (bv n (trem (signed A) (signed B)))

end Sys2Proof.Machine
end

