-- ==== Sys2Proof/Machine/Bitwise.lean ====
section
/-! DEFINITION. The four bitwise operations, bit by bit over the low `s_eff` bits (43_bitwise.md R180 to R184). -/

namespace Sys2Proof.Machine

/-- `bit_and(a, b, size)`, R181. -/
def execBitAnd (a b : Value) (size : Option Nat) (st : State) : Host.Outcome State Fault Refusal :=
  answer st [a, b] [] <| sizedBinary a b size fun _ A B => returnSpliced a (A &&& B)

/-- `bit_or(a, b, size)`, R182. -/
def execBitOr (a b : Value) (size : Option Nat) (st : State) : Host.Outcome State Fault Refusal :=
  answer st [a, b] [] <| sizedBinary a b size fun _ A B => returnSpliced a (A ||| B)

/-- `bit_xor(a, b, size)`, R183. -/
def execBitXor (a b : Value) (size : Option Nat) (st : State) : Host.Outcome State Fault Refusal :=
  answer st [a, b] [] <| sizedBinary a b size fun _ A B => returnSpliced a (A ^^^ B)

/-- `bit_not(a, size)`, R184: the bits above the size are not inverted. -/
def execBitNot (a : Value) (size : Option Nat) (st : State) : Host.Outcome State Fault Refusal :=
  answer st [a] [] <| sizedUnary a size fun _ A => returnSpliced a (~~~A)

end Sys2Proof.Machine
end

