-- ==== Sys2Proof/Machine/Construct.lean ====
section
/-! DEFINITION. The three constructors (40_value.md R100 to R102). -/

namespace Sys2Proof.Machine

/-- The largest integer `from_integer` takes at width n, `hi` of R101. -/
def fromIntegerHigh (band : Band) (n : Nat) : Int :=
  match band with
  | .accept => 2 ^ n - 1
  | .reject => 2 ^ (n - 1) - 1

/-- The bit-string whose bit i is element i of a sequence, zero above it (R102, 20_memory.md R42). -/
def bitsOfSeq (n : Nat) (seq : List Bool) : BitVec n := (BitVec.ofBoolListLE seq).setWidth n

/-- `zero(n)`, R100. -/
def execZero (n : Nat) (st : State) : Host.Outcome State Fault Refusal :=
  answer st [] [n] <|
    require (1 ≤ n) .rangeError <|
    .ok (.value ⟨n, bv n 0⟩)

/-- `from_integer(k, n)`, R101: the band by the instance's FROM_INT_UNSIGNED_BAND. -/
def execFromInteger (k : Int) (n : Nat) (st : State) : Host.Outcome State Fault Refusal :=
  answer st [] [n] <|
    require (1 ≤ n) .rangeError <|
    require (decide (-2 ^ (n - 1) ≤ k ∧ k ≤ fromIntegerHigh st.config.band n)) .rangeError <|
    .ok (.value ⟨n, bv n k⟩)

/-- `from_bits(seq, n)`, R102. -/
def execFromBits (seq : List Bool) (n : Nat) (st : State) : Host.Outcome State Fault Refusal :=
  answer st [] [n] <|
    require (1 ≤ n) .rangeError <|
    require (seq.length ≤ n) .rangeError <|
    .ok (.value ⟨n, bitsOfSeq n seq⟩)

end Sys2Proof.Machine
end

