-- ==== Sys2Proof/Machine/Inspect.lean ====
section
/-! DEFINITION. The ten value functions (40_value.md R104 to R115). -/

namespace Sys2Proof.Machine

/-- The character of a bit in a textual view (R110). -/
def bitChar (b : Bool) : Char := if b then '1' else '0'

/-- The characters of bits `lo + len - 1` down to `lo`, the highest first (R110). -/
def digitsDown {w : Nat} (x : BitVec w) (lo : Nat) : Nat → Text
  | 0 => []
  | len + 1 => bitChar (bitAt x (lo + len)) :: digitsDown x lo len

/-- `cluster(j)` for j below the top cluster, four digits, aligned to bit 0 (R110, decision D17). -/
def fullCluster {w : Nat} (x : BitVec w) (j : Nat) : Text := digitsDown x (4 * j) 4

/-- `D cluster(g-1) D ... D cluster(0)`: the full clusters below cluster g, each after a delimiter (R110). -/
def lowerClusters {w : Nat} (x : BitVec w) : Nat → Text
  | 0 => []
  | g + 1 => Config.binDelim :: (fullCluster x g ++ lowerClusters x g)

/-- The text of `as_binary_text` (R110): leading zero bits dropped, a single `0` for the zero value, the top cluster the
only one that can be shorter than four digits. -/
def binaryText {w : Nat} (x : BitVec w) : Text :=
  if unsigned x = 0 then ['0']
  else
    let m := Nat.log2 (unsigned x)
    let g := m / 4
    digitsDown x (4 * g) (m - 4 * g + 1) ++ lowerClusters x g

/-- `width(a)`, R104. -/
def execWidth (a : Value) (st : State) : Host.Outcome State Fault Refusal :=
  answer st [a] [] <| .ok (.nat a.w)

/-- `bit(a, k)`, R105: an index outside the value fails, negative ones too; it is never wrapped or counted from the top. -/
def execBit (a : Value) (k : Int) (st : State) : Host.Outcome State Fault Refusal :=
  answer st [a] [] <|
    require (decide (0 ≤ k ∧ k < a.w)) .indexError <|
    returnBool (bitAt a.b k.toNat)

/-- `as_unsigned(a)`, R106. -/
def execAsUnsigned (a : Value) (st : State) : Host.Outcome State Fault Refusal :=
  answer st [a] [] <| .ok (.nat (unsigned a.b))

/-- `as_signed(a)`, R107. -/
def execAsSigned (a : Value) (st : State) : Host.Outcome State Fault Refusal :=
  answer st [a] [] <| .ok (.int (signed a.b))

/-- `as_hex(a)`, R109: the text HEX_FORMAT gives, which the spec leaves open. -/
def execAsHex (a : Value) (st : State) : Host.Outcome State Fault Refusal :=
  answer st [a] [] <| .ok (.text (Config.hexFormat a.w a.b))

/-- `as_binary_text(a)`, R110. -/
def execAsBinaryText (a : Value) (st : State) : Host.Outcome State Fault Refusal :=
  answer st [a] [] <| .ok (.text (binaryText a.b))

/-- `copy(a)`, R113. -/
def execCopy (a : Value) (st : State) : Host.Outcome State Fault Refusal :=
  answer st [a] [] <| .ok (.value ⟨a.w, a.b⟩)

/-- `splice_low(a, b)`, R115. -/
def execSpliceLow (a b : Value) (st : State) : Host.Outcome State Fault Refusal :=
  answer st [a, b] [] <|
    require (b.w ≤ a.w) .widthMismatchError <|
    .ok (.value (splice a b.b))

/-- `value_eq(a, b)`, R111: false across widths, never a failure (decision D10). -/
def execValueEq (a b : Value) (st : State) : Host.Outcome State Fault Refusal :=
  answer st [a, b] [] <| returnBool (decide (a.w = b.w ∧ unsigned a.b = unsigned b.b))

/-- `value_lt(a, b)`, R112: unsigned, and a failure across widths (decision D10). -/
def execValueLt (a b : Value) (st : State) : Host.Outcome State Fault Refusal :=
  answer st [a, b] [] <|
    require (a.w = b.w) .widthMismatchError <|
    returnBool (decide (unsigned a.b < unsigned b.b))

end Sys2Proof.Machine
end

