-- ==== Sys2Proof/Machine/Flags.lean ====
section
/-! DEFINITION. BVP has no flags (10_state.md R25): no operation writes or reads one, so there is no flag computation to
write. What a reader coming from a processor would look for here is on the response: its `err` code and its one result
field (30_encoding.md R62, 60_exceptions.md R241), and the predicates the relational operations answer with. -/

namespace Sys2Proof.Machine

/-- The code of a failure kind on `err[2:0]` (60_exceptions.md R241); 0 is success and 7 is never produced. -/
def failureCode : FailureKind → BitVec 3
  | .rangeError => 1#3
  | .widthMismatchError => 2#3
  | .directionError => 3#3
  | .divisionByZeroError => 4#3
  | .indexError => 5#3
  | .illegalOp => 6#3

/-- Response field `err` (R62). -/
def errField : Response → BitVec 3
  | .ok _ => 0#3
  | .failure k => failureCode k

/-- Response field `y`, defined only of a value result. -/
def yField : Response → Option Value
  | .ok (.value y) => some y
  | _ => none

/-- Response field `f`, defined only of a boolean result. -/
def fField : Response → Option Bool
  | .ok (.bool f) => some f
  | _ => none

/-- Response field `z`, defined of a natural and of an integer result (R62). -/
def zField : Response → Option Int
  | .ok (.nat z) => some z
  | .ok (.int z) => some z
  | _ => none

/-- Response field `t`, defined only of a text result. -/
def tField : Response → Option Text
  | .ok (.text t) => some t
  | _ => none

/-- The kind of a result (R66). -/
def resultKind : Result → ResultKind
  | .value _ => .value
  | .bool _ => .boolean
  | .nat _ => .natural
  | .int _ => .integer
  | .text _ => .text

/-- 45_relational.md R201: every bit the same. -/
def sameBits {n : Nat} (A B : BitVec n) : Bool := A == B

/-- R203: unsigned less than. -/
def unsignedLess {n : Nat} (A B : BitVec n) : Bool := decide (unsigned A < unsigned B)

/-- R204: unsigned less than or equal. -/
def unsignedLessEq {n : Nat} (A B : BitVec n) : Bool := decide (unsigned A ≤ unsigned B)

/-- R207: signed less than, the sign at the field's own top bit (decision D29). -/
def signedLess {n : Nat} (A B : BitVec n) : Bool := decide (signed A < signed B)

/-- R208: signed less than or equal. -/
def signedLessEq {n : Nat} (A B : BitVec n) : Bool := decide (signed A ≤ signed B)

end Sys2Proof.Machine
end

