-- ==== Sys2Proof/Machine/Relational.lean ====
section
/-! DEFINITION. The ten comparisons of the low `s_eff` bits (45_relational.md R200 to R210). The answer is a boolean result;
nothing is spliced and no flag is written. -/

namespace Sys2Proof.Machine

/-- `eq(a, b, size)`, R201. -/
def execEq (a b : Value) (size : Option Nat) (st : State) : Host.Outcome State Fault Refusal :=
  answer st [a, b] [] <| sizedBinary a b size fun _ A B => returnBool (sameBits A B)

/-- `neq(a, b, size)`, R202. -/
def execNeq (a b : Value) (size : Option Nat) (st : State) : Host.Outcome State Fault Refusal :=
  answer st [a, b] [] <| sizedBinary a b size fun _ A B => returnBool (!sameBits A B)

/-- `ult(a, b, size)`, R203. -/
def execUlt (a b : Value) (size : Option Nat) (st : State) : Host.Outcome State Fault Refusal :=
  answer st [a, b] [] <| sizedBinary a b size fun _ A B => returnBool (unsignedLess A B)

/-- `ule(a, b, size)`, R204. -/
def execUle (a b : Value) (size : Option Nat) (st : State) : Host.Outcome State Fault Refusal :=
  answer st [a, b] [] <| sizedBinary a b size fun _ A B => returnBool (unsignedLessEq A B)

/-- `ugt(a, b, size)`, R205. -/
def execUgt (a b : Value) (size : Option Nat) (st : State) : Host.Outcome State Fault Refusal :=
  answer st [a, b] [] <| sizedBinary a b size fun _ A B => returnBool (unsignedLess B A)

/-- `uge(a, b, size)`, R206. -/
def execUge (a b : Value) (size : Option Nat) (st : State) : Host.Outcome State Fault Refusal :=
  answer st [a, b] [] <| sizedBinary a b size fun _ A B => returnBool (unsignedLessEq B A)

/-- `slt(a, b, size)`, R207. -/
def execSlt (a b : Value) (size : Option Nat) (st : State) : Host.Outcome State Fault Refusal :=
  answer st [a, b] [] <| sizedBinary a b size fun _ A B => returnBool (signedLess A B)

/-- `sle(a, b, size)`, R208. -/
def execSle (a b : Value) (size : Option Nat) (st : State) : Host.Outcome State Fault Refusal :=
  answer st [a, b] [] <| sizedBinary a b size fun _ A B => returnBool (signedLessEq A B)

/-- `sgt(a, b, size)`, R209. -/
def execSgt (a b : Value) (size : Option Nat) (st : State) : Host.Outcome State Fault Refusal :=
  answer st [a, b] [] <| sizedBinary a b size fun _ A B => returnBool (signedLess B A)

/-- `sge(a, b, size)`, R210. -/
def execSge (a b : Value) (size : Option Nat) (st : State) : Host.Outcome State Fault Refusal :=
  answer st [a, b] [] <| sizedBinary a b size fun _ A B => returnBool (signedLessEq B A)

end Sys2Proof.Machine
end

