-- ==== Sys2Proof/Machine/Shift.lean ====
section
/-! DEFINITION. The three shifts, by exactly one position within the low `s_eff` bits (44_shift.md R190 to R193). -/

namespace Sys2Proof.Machine

/-- Bit i takes bit i-1, bit 0 becomes 0 (R191). -/
def shiftedLeft {n : Nat} (A : BitVec n) : BitVec n := A <<< 1

/-- Bit i takes bit i+1, the top bit becomes 0 (R192). -/
def shiftedRight {n : Nat} (A : BitVec n) : BitVec n := A >>> 1

/-- Bit i takes bit i+1, the top bit keeps its value (R193). -/
def shiftedRightSigned {n : Nat} (A : BitVec n) : BitVec n := A.sshiftRight 1

/-- `shift_left(a, size)`, R191: the bit shifted out does not enter bit `s_eff`. -/
def execShiftLeft (a : Value) (size : Option Nat) (st : State) : Host.Outcome State Fault Refusal :=
  answer st [a] [] <| sizedUnary a size fun _ A => returnSpliced a (shiftedLeft A)

/-- `logical_shift_right(a, size)`, R192: zero enters at the top of the sized field. -/
def execLogicalShiftRight (a : Value) (size : Option Nat) (st : State) : Host.Outcome State Fault Refusal :=
  answer st [a] [] <| sizedUnary a size fun _ A => returnSpliced a (shiftedRight A)

/-- `arithmetic_shift_right(a, size)`, R193: the sign bit is that of the sized field. -/
def execArithmeticShiftRight (a : Value) (size : Option Nat) (st : State) : Host.Outcome State Fault Refusal :=
  answer st [a] [] <| sizedUnary a size fun _ A => returnSpliced a (shiftedRightSigned A)

end Sys2Proof.Machine
end

