-- ==== Sys2Proof/Machine/WidthChange.lean ====
section
/-! DEFINITION. The width-change operations (41_width_change.md R140 to R144). They take no `size` (R140). -/

namespace Sys2Proof.Machine

/-- `zero_extend(a, n)`, R141. -/
def execZeroExtend (a : Value) (n : Nat) (st : State) : Host.Outcome State Fault Refusal :=
  answer st [a] [n] <|
    require (a.w < n) .directionError <|
    .ok (.value ⟨n, zext n a.b⟩)

/-- `sign_extend(a, n)`, R142. -/
def execSignExtend (a : Value) (n : Nat) (st : State) : Host.Outcome State Fault Refusal :=
  answer st [a] [n] <|
    require (a.w < n) .directionError <|
    .ok (.value ⟨n, sext n a.b⟩)

/-- `truncate(a, n)`, R143: the low bits of the operand actually given (R144). -/
def execTruncate (a : Value) (n : Nat) (st : State) : Host.Outcome State Fault Refusal :=
  answer st [a] [] <|
    require (n < a.w) .directionError <|
    require (1 ≤ n) .rangeError <|
    .ok (.value ⟨n, low a n⟩)

end Sys2Proof.Machine
end

