-- ==== Sys2Proof/Machine/Dispatch.lean ====
section
/-! DEFINITION. The meaning of every operation, one arm per constructor of `Instr` (30_encoding.md R66). -/

namespace Sys2Proof.Machine

def exec (i : Instr) (s : State) : Host.Outcome State Fault Refusal :=
  match i with
  | .zero n => Sys2Proof.Machine.execZero n s
  | .fromInteger k n => Sys2Proof.Machine.execFromInteger k n s
  | .fromBits seq n => Sys2Proof.Machine.execFromBits seq n s
  | .width a => Sys2Proof.Machine.execWidth a s
  | .bit a k => Sys2Proof.Machine.execBit a k s
  | .asUnsigned a => Sys2Proof.Machine.execAsUnsigned a s
  | .asSigned a => Sys2Proof.Machine.execAsSigned a s
  | .asHex a => Sys2Proof.Machine.execAsHex a s
  | .asBinaryText a => Sys2Proof.Machine.execAsBinaryText a s
  | .copy a => Sys2Proof.Machine.execCopy a s
  | .spliceLow a b => Sys2Proof.Machine.execSpliceLow a b s
  | .valueEq a b => Sys2Proof.Machine.execValueEq a b s
  | .valueLt a b => Sys2Proof.Machine.execValueLt a b s
  | .zeroExtend a n => Sys2Proof.Machine.execZeroExtend a n s
  | .signExtend a n => Sys2Proof.Machine.execSignExtend a n s
  | .truncate a n => Sys2Proof.Machine.execTruncate a n s
  | .add a b size => Sys2Proof.Machine.execAdd a b size s
  | .sub a b size => Sys2Proof.Machine.execSub a b size s
  | .mul a b size => Sys2Proof.Machine.execMul a b size s
  | .udiv a b size => Sys2Proof.Machine.execUdiv a b size s
  | .urem a b size => Sys2Proof.Machine.execUrem a b size s
  | .sdiv a b size => Sys2Proof.Machine.execSdiv a b size s
  | .srem a b size => Sys2Proof.Machine.execSrem a b size s
  | .bitAnd a b size => Sys2Proof.Machine.execBitAnd a b size s
  | .bitOr a b size => Sys2Proof.Machine.execBitOr a b size s
  | .bitXor a b size => Sys2Proof.Machine.execBitXor a b size s
  | .bitNot a size => Sys2Proof.Machine.execBitNot a size s
  | .shiftLeft a size => Sys2Proof.Machine.execShiftLeft a size s
  | .logicalShiftRight a size => Sys2Proof.Machine.execLogicalShiftRight a size s
  | .arithmeticShiftRight a size => Sys2Proof.Machine.execArithmeticShiftRight a size s
  | .eq a b size => Sys2Proof.Machine.execEq a b size s
  | .neq a b size => Sys2Proof.Machine.execNeq a b size s
  | .ult a b size => Sys2Proof.Machine.execUlt a b size s
  | .ule a b size => Sys2Proof.Machine.execUle a b size s
  | .ugt a b size => Sys2Proof.Machine.execUgt a b size s
  | .uge a b size => Sys2Proof.Machine.execUge a b size s
  | .slt a b size => Sys2Proof.Machine.execSlt a b size s
  | .sle a b size => Sys2Proof.Machine.execSle a b size s
  | .sgt a b size => Sys2Proof.Machine.execSgt a b size s
  | .sge a b size => Sys2Proof.Machine.execSge a b size s

end Sys2Proof.Machine
end

