-- ==== Sys2Proof/Machine/Step.lean ====
section
/-! DEFINITION. One step: the block answers the oldest request presented (20_memory.md R46, 00_scope.md R9). -/

namespace Sys2Proof.Machine

/-- The decoded request is executed; an unassigned op code is answered with IllegalOp whatever the other fields hold
(30_encoding.md R70, 60_exceptions.md R248, R252 item 1). With no request presented no rule says what the outputs show
(10_state.md R32, U18): refused (log entry 4). -/
def step (s : State) : Host.Outcome State Fault Refusal :=
  match s.pending with
  | [] => .refused .noRequest
  | r :: rest =>
    match decode r with
    | .error _ => .next (raise { s with pending := rest } .illegalOp)
    | .ok i => exec i { s with pending := rest }

/-- `s` with the request of a row of spec/opcode_table.json presented as the next to be answered: the row's bits in `op`,
every operand field zero (log entries 3 and 9). -/
def State.withFetchWord (s : State) (nbits w : Nat) : State :=
  { s with pending := tableRequest nbits w :: s.pending }

end Sys2Proof.Machine
end

