-- ==== Sys2Proof/Machine/Sequence.lean ====
section
/-! DEFINITION. A sequence of requests with named results (30_encoding.md R90) and its end (70_reset_and_hazards.md R278):
what a host does with the block. The notation adds no behaviour: every line is one step of the block. -/

namespace Sys2Proof.Machine

/-- An operand of a line: a literal, or the name an earlier line bound (R90). -/
inductive Arg (α : Type) where
  | lit (v : α)
  | name (x : Text)
  deriving DecidableEq, Repr

/-- A line `name = request` (R90). The operand fields are those of the request record (R61); a line's format says which of
them it reads (R63), and the others stand for nothing. -/
structure Line where
  /-- the name the result is bound to -/
  name : Text
  op : BitVec 8
  a : Arg Value
  b : Arg Value
  szEn : Bool
  size : Arg Nat
  n : Arg Nat
  k : Arg Int
  seq : List (Arg Bool)
  deriving DecidableEq, Repr

/-- A line whose operand fields are all literal zeros, as `Request.blank` has them. -/
def Line.blank (name : Text) (op : BitVec 8) : Line :=
  { name := name, op := op, a := .lit ⟨1, 0#1⟩, b := .lit ⟨1, 0#1⟩, szEn := false, size := .lit 0, n := .lit 0,
    k := .lit 0, seq := [] }

/-- The results the host holds, the latest first (R90, R278). A name bound twice stands for its latest result. -/
abbrev Bindings := List (Text × Result)

/-- The result a name is bound to. -/
def lookupName (env : Bindings) (x : Text) : Option Result := env.lookup x

/-- A value result fits a value operand. -/
def fitValue : Result → Option Value
  | .value v => some v
  | _ => none

/-- A natural result fits a natural operand (log entry 16). -/
def fitNat : Result → Option Nat
  | .nat z => some z
  | _ => none

/-- A natural or an integer result fits an integer operand (log entry 16). -/
def fitInt : Result → Option Int
  | .nat z => some z
  | .int z => some z
  | _ => none

/-- A boolean result fits an element of a bit sequence (log entry 16). -/
def fitBool : Result → Option Bool
  | .bool f => some f
  | _ => none

/-- The operand an argument stands for: the literal, or the earlier result when its kind fits. -/
def resolveArg {α : Type} (fit : Result → Option α) (env : Bindings) : Arg α → Option α
  | .lit v => some v
  | .name x => (lookupName env x).bind fit

/-- The elements of a sequence operand, all of them resolved. -/
def resolveSeq (env : Bindings) : List (Arg Bool) → Option (List Bool)
  | [] => some []
  | e :: es =>
    match resolveArg fitBool env e, resolveSeq env es with
    | some b, some bs => some (b :: bs)
    | _, _ => none

/-- Does a line read an operand field? Its format says so (R63), `size` only when `sz_en` = 1 (R67); an unassigned code
reads nothing (R248). -/
def Line.reads (l : Line) (f : Field) : Bool :=
  match Op.ofCode l.op with
  | none => false
  | some o => o.format.fields.contains f && (f != .size || l.szEn)

/-- A field the line reads is resolved; one it does not read keeps the blank request's filler. -/
def readOr {α : Type} (isRead : Bool) (filler : α) (v : Option α) : Option α := if isRead then v else some filler

/-- The request of a line, its named operands replaced by the results they stand for; none where a name does not resolve. -/
def Line.resolve (l : Line) (env : Bindings) : Option Request := do
  let blank := Request.blank l.op
  let a ← readOr (l.reads .a) blank.a (resolveArg fitValue env l.a)
  let b ← readOr (l.reads .b) blank.b (resolveArg fitValue env l.b)
  let size ← readOr (l.reads .size) blank.size (resolveArg fitNat env l.size)
  let n ← readOr (l.reads .n) blank.n (resolveArg fitNat env l.n)
  let k ← readOr (l.reads .k) blank.k (resolveArg fitInt env l.k)
  let seq ← readOr (l.reads .seq) blank.seq (resolveSeq env l.seq)
  some { op := l.op, a := a, b := b, szEn := l.szEn, size := size, n := n, k := k, seq := seq }

/-- One request presented to an instance that has nothing else pending. -/
def presented (cfg : Config) (r : Request) : State := { config := cfg, pending := [r], response := none }

/-- What the host does with the outcome of a line's step: it binds the result to the line's name, or the sequence ends
there in the failure the response reports (R90, R246, R278). -/
def bindOutcome (name : Text) (env : Bindings) : Host.Outcome State Fault Refusal → Host.Outcome Bindings Fault Refusal
  | .next st =>
    match st.response with
    | some (.ok r) => .next ((name, r) :: env)
    | some (.failure k) => .fault (.failure k)
    | none => .refused .noRequest
  | .fault f => .fault f
  | .refused q => .refused q

/-- Issue one line: resolve its operands, have the block answer, bind the result. -/
def issueLine (cfg : Config) (env : Bindings) (l : Line) : Host.Outcome Bindings Fault Refusal :=
  match l.resolve env with
  | none => .refused .unresolvedName
  | some r => bindOutcome l.name env (step (presented cfg r))

/-- A sequence: the lines in order, ending at the first failure, no later line issued (R90). It ends successfully with the
bindings of names to results, or in failure with the kind (R278). -/
def runSequence (cfg : Config) : List Line → Bindings → Host.Outcome Bindings Fault Refusal
  | [], env => .next env
  | l :: ls, env =>
    match issueLine cfg env l with
    | .next env' => runSequence cfg ls env'
    | .fault f => .fault f
    | .refused q => .refused q

end Sys2Proof.Machine
end

