-- ==== Sys2Proof/Safety.lean ====
section
/-! DEFINITION. What counts as a successful run (70_reset_and_hazards.md R278) and the terms the statements are written in:
the low field of a value read as an unsigned and as a signed integer, a result that keeps the high bits of an operand. -/

namespace Sys2Proof

/-- Bit `i` of a value (00_scope.md R11); false at and above the width. -/
def Value.bitAt (v : Value) (i : Nat) : Bool := v.b.getLsbD i

/-- The unsigned integer of the low `n` bits of a value (00_scope.md section 5.1, 42_arithmetic.md R152). -/
def Value.lowUnsigned (v : Value) (n : Nat) : Nat := v.b.toNat % 2 ^ n

/-- The two's-complement integer of the low `n` bits of a value, n at least 1: the sign is bit n - 1 (decision D29). -/
def Value.lowSigned (v : Value) (n : Nat) : Int :=
  if v.bitAt (n - 1) then (v.lowUnsigned n : Int) - 2 ^ n else v.lowUnsigned n

end Sys2Proof

namespace Sys2Proof.Machine

/-- The block has answered, and with a result: `err` = 0 (60_exceptions.md R241). -/
def State.succeeded (st : State) : Bool :=
  match st.response with
  | some r => errField r == 0#3
  | none => false

/-- The next `k` requests are all answered with a result: a successful run (R278). A run that meets a failure is none. -/
def runsSuccessfully : Nat → State → Bool
  | 0, _ => true
  | k + 1, st =>
    match step st with
    | .next st' => st'.succeeded && runsSuccessfully k st'
    | .fault _ => false
    | .refused _ => false

/-- The response a step answers with, if it answers. -/
def responseOf : Host.Outcome State Fault Refusal → Option Response
  | .next st => st.response
  | .fault _ => none
  | .refused _ => none

/-- The responses of the next `k` steps, oldest first, ending where a step gives none. -/
def responsesOf : Nat → State → List Response
  | 0, _ => []
  | k + 1, st =>
    match step st with
    | .next st' => st'.response.toList ++ responsesOf k st'
    | .fault _ => []
    | .refused _ => []

/-- The effective size of a request is `n`, and it is legal for a width-`w` operand: given and equal to `n`, or omitted
and `n` the width (30_encoding.md R67); from 1 to `w` (42_arithmetic.md R152). -/
def LegalSize (w : Nat) (size : Option Nat) (n : Nat) : Prop :=
  (size = some n ∨ (size = none ∧ n = w)) ∧ 1 ≤ n ∧ n ≤ w

/-- `v` has the width of `x` and, at and above bit `n`, the bits of `x` (R153, 46_laws.md R227). -/
def KeepsHighBits (x v : Value) (n : Nat) : Prop :=
  v.w = x.w ∧ ∀ i, n ≤ i → v.bitAt i = x.bitAt i

/-- The ten sized operations that take two values and return one (42_arithmetic.md R151; format S2, 30_encoding.md R63). -/
def binaryValueOps : List (Value → Value → Option Nat → Instr) :=
  [.add, .sub, .mul, .udiv, .urem, .sdiv, .srem, .bitAnd, .bitOr, .bitXor]

/-- The four divisions and remainders (42_arithmetic.md R159). -/
def divisionOps : List (Value → Value → Option Nat → Instr) := [.udiv, .urem, .sdiv, .srem]

/-- The ten relational operations (45_relational.md R200; format CMP). -/
def relationalOps : List (Value → Value → Option Nat → Instr) :=
  [.eq, .neq, .ult, .ule, .ugt, .uge, .slt, .sle, .sgt, .sge]

/-- The four sized operations of one value (R151; format S1). -/
def unarySizedOps : List (Value → Option Nat → Instr) :=
  [.bitNot, .shiftLeft, .logicalShiftRight, .arithmeticShiftRight]

/-- The request succeeds: the next state is the old one with the result as its response (30_encoding.md R62; no other field
changes, 10_state.md R22). -/
def Answers (i : Instr) (st : State) (r : Result) : Prop := exec i st = .next (succeed st r)

/-- The request fails with kind `k`: the next state is the old one with the failure as its response, and there is no
result (60_exceptions.md R246). -/
def FailsWith (i : Instr) (st : State) (k : FailureKind) : Prop := exec i st = .next (raise st k)

/-- The well-formedness of a result: a value result is a value of the spec and one the instance carries (10_state.md R21,
R31; 00_scope.md R7). -/
def Result.wf (c : Config) : Result → Bool
  | .value v => v.wf && c.fits v.w
  | .bool _ => true
  | .nat _ => true
  | .int _ => true
  | .text _ => true

/-- The invariant of the boundary: the result shown, if there is one, is a well-formed value of the instance (R21, R31). -/
def State.responseWf (st : State) : Bool :=
  match st.response with
  | some (.ok r) => Result.wf st.config r
  | some (.failure _) => true
  | none => true

end Sys2Proof.Machine
end

