-- ==== Sys2Proof/Certificates/Slice0/Obligations.lean ====
section
/-! DEFINITION. The statements for the provers: what the numbered rules of spec/ say an operation or the block does.
`exec i st = .next (succeed st r)` says that the whole next state is `st` with the response `r`: the parameters and the
requests still pending are unchanged (the frame), and `raise st k` says the same of a failure. -/

open Sys2Proof Sys2Proof.Machine

/-! ## Requests and their encoding (30_encoding.md) -/

/-- Decoding and encoding agree on every operand: an encoded instruction decodes to itself, and a request decodes to `i`
exactly when it holds the op code of `i` and, in the fields the format of `i` reads, the operands of `i` (R61, R63, R67). -/
def Obligations.DecodeReadsOpAndFormatFieldsOnly : Prop :=
  (∀ i : Instr, decode (encode i) = .ok i) ∧ ∀ (r : Request) (i : Instr), decode r = .ok i ↔ r.carries i

/-- R65: decoding is total, no two operations share a code, all 8 bits select and no other field takes part. -/
def Obligations.OpCodeAloneSelectsOneOperation : Prop :=
  (∀ o o' : Op, o.code = o'.code → o = o') ∧
  (∀ r : Request, (∃ o : Op, o.code = r.op ∧ decode r = .ok (assemble o r)) ∨
    ((∀ o : Op, o.code ≠ r.op) ∧ decode r = .error (.unassigned r.op))) ∧
  ∀ (r r' : Request) (i : Instr), r.op = r'.op → decode r = .ok i → ∃ i', decode r' = .ok i' ∧ i'.op = i.op

/-- The unassigned codes as R70 lists them. -/
def Sys2Proof.unassignedRanges : List (Nat × Nat) :=
  [(0x03, 0x0F), (0x1A, 0x1F), (0x23, 0x2F), (0x37, 0x3F), (0x44, 0x4F), (0x53, 0x5F), (0x6A, 0x6F), (0x70, 0xFF)]

/-- Is a code in one of the ranges of R70? -/
def Sys2Proof.unassignedCode (c : Nat) : Bool := unassignedRanges.any fun p => p.1 ≤ c && c ≤ p.2

/-- R70: the codes outside R66 are the listed ranges, 216 of the 256; a request with one is answered with IllegalOp
(`err` = 6) and no result, whatever its other fields hold. (The queue the request is taken from is the model's, log entry 1.) -/
def Obligations.UnassignedCodesAnswerIllegalOp : Prop :=
  ((List.range 256).filter unassignedCode).length = 216 ∧
  (∀ c : BitVec 8, unassignedCode c.toNat = true ↔ ∀ o : Op, o.code ≠ c) ∧
  errField (.failure .illegalOp) = 6#3 ∧
  ∀ (st : State) (r : Request) (rest : List Request), st.pending = r :: rest → unassignedCode r.op.toNat = true →
    step st = .next (raise { st with pending := rest } .illegalOp)

/-- R248: IllegalOp has one cause, an `op` outside the 40, decided before any other field is looked at. (The queue
of requests is the model's, log entry 1.) -/
def Obligations.IllegalOpExactlyForUnassignedCodes : Prop :=
  ∀ (st : State) (r : Request) (rest : List Request), st.pending = r :: rest →
    (responseOf (step st) = some (.failure .illegalOp) ↔ ∀ o : Op, o.code ≠ r.op)

/-- R64: `op[7:4]` is the family; each family nibble holds the operations of its spec file, 0x7 to 0xF hold none. -/
def Obligations.FamilyNibbleGivesTheFamily : Prop :=
  (∀ o ∈ ([.zero, .fromInteger, .fromBits] : List Op), Family.ofNibble (opFamilyNibble o.code) = some .construction) ∧
  (∀ o ∈ ([.width, .bit, .asUnsigned, .asSigned, .asHex, .asBinaryText, .copy, .spliceLow, .valueEq, .valueLt] : List Op),
    Family.ofNibble (opFamilyNibble o.code) = some .valueFunctions) ∧
  (∀ o ∈ ([.zeroExtend, .signExtend, .truncate] : List Op), Family.ofNibble (opFamilyNibble o.code) = some .widthChange) ∧
  (∀ o ∈ ([.add, .sub, .mul, .udiv, .urem, .sdiv, .srem] : List Op),
    Family.ofNibble (opFamilyNibble o.code) = some .arithmetic) ∧
  (∀ o ∈ ([.bitAnd, .bitOr, .bitXor, .bitNot] : List Op), Family.ofNibble (opFamilyNibble o.code) = some .bitwise) ∧
  (∀ o ∈ ([.shiftLeft, .logicalShiftRight, .arithmeticShiftRight] : List Op),
    Family.ofNibble (opFamilyNibble o.code) = some .shift) ∧
  (∀ o ∈ ([.eq, .neq, .ult, .ule, .ugt, .uge, .slt, .sle, .sgt, .sge] : List Op),
    Family.ofNibble (opFamilyNibble o.code) = some .relational) ∧
  ∀ c : BitVec 8, 7 ≤ (opFamilyNibble c).toNat → Family.ofNibble (opFamilyNibble c) = none ∧ Op.ofCode c = none

/-- Some words of the table of R66, written out bit by bit, decode to the operation they stand for, and an unassigned word
(R70) to none. The rules give the operation of each word and no operand: that decodeTableWord reads the word as `op` with
every operand field zero (the one-bit zero value, 0, the size omitted) is the model's choice (log entry 9). -/
def Obligations.WrittenWordsDecode : Prop :=
  decodeTableWord 8 0b00000000 = some (.zero 0) ∧
  decodeTableWord 8 0b00010011 = some (.asSigned ⟨1, 0#1⟩) ∧
  decodeTableWord 8 0b00100010 = some (.truncate ⟨1, 0#1⟩ 0) ∧
  decodeTableWord 8 0b00110101 = some (.sdiv ⟨1, 0#1⟩ ⟨1, 0#1⟩ none) ∧
  decodeTableWord 8 0b01000011 = some (.bitNot ⟨1, 0#1⟩ none) ∧
  decodeTableWord 8 0b01010010 = some (.arithmeticShiftRight ⟨1, 0#1⟩ none) ∧
  decodeTableWord 8 0b01101001 = some (.sge ⟨1, 0#1⟩ ⟨1, 0#1⟩ none) ∧
  decodeTableWord 8 0b00110111 = none

/-! ## The boundary: steps, responses, refusals -/

/-- A step answers the oldest request presented: it is `exec` of what that request decodes to, in the state from which the
request has been taken (00_scope.md R9, 20_memory.md R46; the queue of requests is the model's, log entry 1). So a row of the
opcode table presented by withFetchWord (the model's interface, log entries 3 and 9) is the very next request to run. -/
def Obligations.StepRunsTheDecodedRequest : Prop :=
  (∀ (st : State) (r : Request) (rest : List Request) (i : Instr), st.pending = r :: rest → decode r = .ok i →
    step st = exec i { st with pending := rest }) ∧
  ∀ (st : State) (nbits w : Nat) (i : Instr), decodeTableWord nbits w = some i →
    step (st.withFetchWord nbits w) = exec i st

/-- At reset nothing is presented and nothing has been answered, and with nothing presented a step is refused: the model's
choice (log entries 1, 4, 5 and 6); the spec gives the block no state to reset (10_state.md section 4). -/
def Obligations.ResetPresentsNoRequest : Prop :=
  State.reset.pending = [] ∧ State.reset.response = none ∧ State.reset.config = { wmax := none, band := .accept } ∧
  ∀ st : State, st.pending = [] → step st = .refused .noRequest

/-- R258 and R275: a request whose operands are values within WMAX, and which asks for no width above WMAX, is answered; any
other is refused, by name, whatever preconditions it breaks; no request faults. (Which refusal is named first is the
model's, log entry 11; that a failing request is answered and does not fault is log entry 2.) -/
def Obligations.RequestsAnsweredExactlyWhenWellFormed : Prop :=
  ∀ (i : Instr) (st : State),
    (i.wf st.config = true → ∃ r : Response, exec i st = .next (respond st r)) ∧
    (i.operands.all Value.wf = false → exec i st = .refused .illFormedOperand) ∧
    (i.operands.all Value.wf = true → i.wf st.config = false → exec i st = .refused .aboveWmax)

/-- R22 and R61: the response depends on the op code and the fields the format lists, and on nothing else: not on the other
fields, the earlier response or the later requests. (The parameters of the instance are the same for both; the queue is the model's,
log entry 1.) -/
def Obligations.ResponseDependsOnTheRequestAlone : Prop :=
  ∀ (st st' : State) (r r' : Request) (rest rest' : List Request) (i : Instr),
    st.config = st'.config → st.pending = r :: rest → st'.pending = r' :: rest' → r.carries i → r'.carries i →
    responseOf (step st) = responseOf (step st') ∧
    ((∃ t, step st = .next t) ↔ ∃ t', step st' = .next t')

/-- Frame of every step: it takes exactly the oldest request from the queue, answers it, and changes no parameter (10_state.md
R26); it never faults. Two clauses are the model's: the queue that loses its oldest request is log entry 1, and that a failing
request is answered with a next state, where 60_exceptions.md R246 calls a failure a fault of the host sequence, is log entry 2. -/
def Obligations.StepAnswersOneRequestAndChangesNothingElse : Prop :=
  ∀ st : State, (∀ f, step st ≠ .fault f) ∧
    ∀ t : State, step st = .next t →
      ∃ (r : Request) (resp : Response), st.pending = r :: t.pending ∧ t.config = st.config ∧ t.response = some resp

/-- R49 (a), (b), 20_memory.md: a run gives every request the response it gets alone, and issuing the requests in another
order permutes the responses. The queue a run is made of is the model's (log entry 1), and so is that requests are answered one
at a time, oldest first (log entry 17). -/
def Obligations.RunGivesEachRequestItsOwnResponse : Prop :=
  ∀ (cfg : Config) (rs rs' more more' : List Request) (resp resp' : Option Response),
    (∀ r ∈ rs, (responseOf (step (presented cfg r))).isSome) → rs.Perm rs' →
    responsesOf rs.length { config := cfg, pending := rs ++ more, response := resp } =
      rs.filterMap (fun r => responseOf (step (presented cfg r))) ∧
    (responsesOf rs.length { config := cfg, pending := rs ++ more, response := resp }).Perm
      (responsesOf rs'.length { config := cfg, pending := rs' ++ more', response := resp' })

/-- R21, R31: every result is a value of the spec, of width from 1 to WMAX: an invariant every step keeps, from every
state. -/
def Obligations.EveryStepKeepsResultsWellFormed : Prop :=
  ∀ st t : State, st.responseWf = true → step st = .next t → t.responseWf = true

/-- The invariant of results holds at reset, where no response is shown: the model's choice (log entry 1). -/
def Obligations.ResetResponseIsWellFormed : Prop := State.reset.responseWf = true

/-- R66: an operation that succeeds returns the kind of result the table gives it. -/
def Obligations.ResultHasTheKindOfTheTable : Prop :=
  ∀ (i : Instr) (st : State) (r : Result), exec i st = .next (succeed st r) → resultKind r = i.op.resultKind

/-- R62 and R241: the codes of `err`; 7 is never produced; exactly one of y, f, z, t is defined of a success and none of a
failure. -/
def Obligations.ErrCodesAndResponseFields : Prop :=
  (∀ r : Result, errField (.ok r) = 0#3) ∧
  errField (.failure .rangeError) = 1#3 ∧ errField (.failure .widthMismatchError) = 2#3 ∧
  errField (.failure .directionError) = 3#3 ∧ errField (.failure .divisionByZeroError) = 4#3 ∧
  errField (.failure .indexError) = 5#3 ∧ errField (.failure .illegalOp) = 6#3 ∧
  (∀ r : Response, errField r ≠ 7#3) ∧
  ∀ r : Response,
    (errField r = 0#3 → ((yField r).isSome.toNat + (fField r).isSome.toNat + (zField r).isSome.toNat +
      (tField r).isSome.toNat = 1)) ∧
    (errField r ≠ 0#3 → yField r = none ∧ fField r = none ∧ zField r = none ∧ tField r = none)

/-! ## Sequences of requests (30_encoding.md R90, 70_reset_and_hazards.md R278) -/

/-- A sequence ends at its first failure with that kind, whatever lines follow; when every line is answered with a result it
ends successfully, the later lines run with the bindings of the earlier ones. -/
def Obligations.SequenceEndsAtItsFirstFailure : Prop :=
  ∀ (cfg : Config) (ls ls' : List Line) (l : Line) (env env' : Bindings), runSequence cfg ls env = .next env' →
    (∀ k, issueLine cfg env' l = .fault (.failure k) → runSequence cfg (ls ++ l :: ls') env = .fault (.failure k)) ∧
    (∀ env'', issueLine cfg env' l = .next env'' → runSequence cfg (ls ++ l :: ls') env = runSequence cfg ls' env'')

/-- A line binds its name to the result of its request, or ends the sequence in the failure of its request: the request is
answered as the block answers it alone, an operand that is a name standing for the result bound to it. -/
def Obligations.LineBindsTheResultOfItsRequest : Prop :=
  ∀ (cfg : Config) (env : Bindings) (l : Line) (r : Request), l.resolve env = some r →
    (∀ res, responseOf (step (presented cfg r)) = some (.ok res) → issueLine cfg env l = .next ((l.name, res) :: env)) ∧
    (∀ k, responseOf (step (presented cfg r)) = some (.failure k) → issueLine cfg env l = .fault (.failure k)) ∧
    ∀ (x y : Text) (a b : Value), lookupName env x = some (.value a) → lookupName env y = some (.value b) →
      ({ Line.blank l.name Op.add.code with a := .name x, b := .name y } : Line).resolve env =
        some (encode (.add a b none))

/-! ## Constructors (40_value.md R100 to R102) -/

/-- R100: `zero(n)` gives the zero value of width n, and fails with RangeError for n = 0. -/
def Obligations.ZeroGivesTheZeroValue : Prop :=
  ∀ (st : State) (n : Nat), st.config.fits n = true →
    (1 ≤ n → exec (.zero n) st = .next (succeed st (.value ⟨n, 0#n⟩))) ∧
    (n = 0 → exec (.zero n) st = .next (raise st .rangeError))

/-- R101: `from_integer(k, n)` takes every k from -2^(n-1) to 2^n - 1 (accept) or 2^(n-1) - 1 (reject) and encodes it as
k mod 2^n; every other k, and n = 0, fails with RangeError. -/
def Obligations.FromIntegerEncodesItsRange : Prop :=
  ∀ (st : State) (k : Int) (n : Nat), st.config.fits n = true →
    (n = 0 → exec (.fromInteger k n) st = .next (raise st .rangeError)) ∧
    (1 ≤ n →
      (-2 ^ (n - 1) ≤ k → (k < 2 ^ (n - 1) ∨ (st.config.band = .accept ∧ k < 2 ^ n)) →
        ∃ v : Value, exec (.fromInteger k n) st = .next (succeed st (.value v)) ∧ v.w = n ∧
          (v.b.toNat : Int) = k % 2 ^ n) ∧
      (k < -2 ^ (n - 1) ∨ 2 ^ n ≤ k ∨ (st.config.band = .reject ∧ 2 ^ (n - 1) ≤ k) →
        exec (.fromInteger k n) st = .next (raise st .rangeError)))

/-- R102: element i of the sequence becomes bit i, the bits above are zero; n = 0 and a sequence longer than n fail with
RangeError. -/
def Obligations.FromBitsPlacesTheSequenceAtTheLowEnd : Prop :=
  ∀ (st : State) (seq : List Bool) (n : Nat), st.config.fits n = true →
    (1 ≤ n → seq.length ≤ n →
      ∃ v : Value, exec (.fromBits seq n) st = .next (succeed st (.value v)) ∧ v.w = n ∧
        ∀ i, v.bitAt i = (seq[i]?).getD false) ∧
    (n = 0 ∨ n < seq.length → exec (.fromBits seq n) st = .next (raise st .rangeError))

/-- R223: for every v of the signed range of width W, `from_integer(v, W).as_signed() = v` and `as_unsigned()` is in
[0, 2^W - 1], under both settings; for v in the band, where it is accepted, `as_signed` gives v - 2^W. -/
def Obligations.ConstructionRoundTrip : Prop :=
  ∀ (st : State) (v : Int) (W : Nat), 1 ≤ W → st.config.fits W = true →
    (-2 ^ (W - 1) ≤ v → v < 2 ^ (W - 1) →
      ∃ (x : Value) (z : Nat), Answers (.fromInteger v W) st (.value x) ∧ Answers (.asSigned x) st (.int v) ∧
        Answers (.asUnsigned x) st (.nat z) ∧ z ≤ 2 ^ W - 1) ∧
    (2 ^ (W - 1) ≤ v → v < 2 ^ W → st.config.band = .accept →
      ∃ x : Value, Answers (.fromInteger v W) st (.value x) ∧ Answers (.asSigned x) st (.int (v - 2 ^ W)))

/-- The conversions and the constructors invert each other (40_value.md section 2, the sentences marked derived there):
from the signed reading, from the bits, and from the unsigned reading where the sign bit is 0 or the band is accepted. -/
def Obligations.ConversionsInvertConstructors : Prop :=
  ∀ (st : State) (x : Value), x.wf = true → st.config.fits x.w = true →
    (∃ k, Answers (.asSigned x) st (.int k) ∧ Answers (.fromInteger k x.w) st (.value x)) ∧
    Answers (.fromBits ((List.range x.w).map x.bitAt) x.w) st (.value x) ∧
    ∃ z : Nat, Answers (.asUnsigned x) st (.nat z) ∧
      (x.bitAt (x.w - 1) = false ∨ st.config.band = .accept → Answers (.fromInteger z x.w) st (.value x)) ∧
      (x.bitAt (x.w - 1) = true → st.config.band = .reject → FailsWith (.fromInteger z x.w) st .rangeError)

/-! ## Value functions (40_value.md R104 to R115) -/

/-- R104, R113, R109: `width` gives the bit count, `copy` a value with the same width and bits, `as_hex` the text HEX_FORMAT
gives, whatever that is. -/
def Obligations.WidthCopyAndHexTextAnswer : Prop :=
  ∀ (st : State) (a : Value), a.wf = true → st.config.fits a.w = true →
    exec (.width a) st = .next (succeed st (.nat a.w)) ∧ exec (.copy a) st = .next (succeed st (.value a)) ∧
    exec (.asHex a) st = .next (succeed st (.text (Config.hexFormat a.w a.b)))

/-- R105: `bit(a, k)` reads bit k for 0 <= k < width; a negative index is out of range and so is the width itself. -/
def Obligations.BitReadsOnlyInsideTheValue : Prop :=
  ∀ (st : State) (a : Value), a.wf = true → st.config.fits a.w = true →
    (∀ i : Nat, i < a.w → exec (.bit a i) st = .next (succeed st (.bool (a.bitAt i)))) ∧
    ∀ k : Int, k < 0 ∨ (a.w : Int) ≤ k → exec (.bit a k) st = .next (raise st .indexError)

/-- R106, R107: `as_unsigned` is the weighted sum of the bits, `as_signed` the same when the most significant bit is 0,
else that less 2^width. -/
def Obligations.ReadingsAreWeightedSums : Prop :=
  ∀ (st : State) (a : Value), a.wf = true → st.config.fits a.w = true →
    ∃ (z : Nat) (k : Int), exec (.asUnsigned a) st = .next (succeed st (.nat z)) ∧
      exec (.asSigned a) st = .next (succeed st (.int k)) ∧
      z = ((List.range a.w).map fun i => if a.bitAt i then 2 ^ i else 0).sum ∧
      k = if a.bitAt (a.w - 1) then (z : Int) - 2 ^ a.w else z

/-- R110: the zero value reads `0`. Otherwise, with m the highest set bit, the text holds the digits of bits m to 0 and a
delimiter after every fourth digit counted from bit 0, and nothing else: read from its end, the digit of bit i stands at
place i + i/4 and delimiter j at place 5j + 4. -/
def Obligations.BinaryTextGroupsDigitsInFours : Prop :=
  ∀ (st : State) (a : Value), a.wf = true → st.config.fits a.w = true →
    ((∀ i, a.bitAt i = false) → exec (.asBinaryText a) st = .next (succeed st (.text ['0']))) ∧
    ∀ m : Nat, a.bitAt m = true → (∀ i, m < i → a.bitAt i = false) →
      ∃ t : Text, exec (.asBinaryText a) st = .next (succeed st (.text t)) ∧ t.length = m + 1 + m / 4 ∧
        (∀ i, i ≤ m → t.reverse[i + i / 4]? = some (if a.bitAt i then '1' else '0')) ∧
        ∀ j, j < m / 4 → t.reverse[5 * j + 4]? = some Config.binDelim

/-- R225: bits [width(y), width(x)) of `splice_low(x, y)` are x's and bits [0, width(y)) are y's, for width(y) <= width(x);
R115: a wider y fails with WidthMismatchError. -/
def Obligations.SpliceLowReplacesTheLowBits : Prop :=
  ∀ (st : State) (x y : Value), (Instr.spliceLow x y).wf st.config = true →
    (y.w ≤ x.w → ∃ v : Value, exec (.spliceLow x y) st = .next (succeed st (.value v)) ∧ v.w = x.w ∧
      (∀ i, y.w ≤ i → i < x.w → v.bitAt i = x.bitAt i) ∧ ∀ i, i < y.w → v.bitAt i = y.bitAt i) ∧
    (x.w < y.w → exec (.spliceLow x y) st = .next (raise st .widthMismatchError))

/-- R111, R112: `value_eq` is true exactly of equal widths and equal bits and never fails; `value_lt` compares the unsigned
readings of equal widths and fails with WidthMismatchError across widths. -/
def Obligations.ValueComparisons : Prop :=
  ∀ (st : State) (a b : Value), (Instr.valueEq a b).wf st.config = true →
    (∃ e : Bool, exec (.valueEq a b) st = .next (succeed st (.bool e)) ∧
      (e = true ↔ a.w = b.w ∧ ∀ i, i < a.w → a.bitAt i = b.bitAt i)) ∧
    (a.w = b.w → ∃ e : Bool, exec (.valueLt a b) st = .next (succeed st (.bool e)) ∧
      (e = true ↔ a.b.toNat < b.b.toNat)) ∧
    (a.w ≠ b.w → exec (.valueLt a b) st = .next (raise st .widthMismatchError))

/-! ## Width change (41_width_change.md R141 to R145) -/

/-- R141, R142: the low bits are the operand's; the added bits are 0 (`zero_extend`, the unsigned reading kept) or copies of
the sign bit (`sign_extend`, the signed reading kept); a target not above the width fails with DirectionError. -/
def Obligations.ExtensionsWidenStrictly : Prop :=
  ∀ (st : State) (a : Value) (n : Nat), (Instr.zeroExtend a n).wf st.config = true →
    (a.w < n →
      (∃ v : Value, exec (.zeroExtend a n) st = .next (succeed st (.value v)) ∧ v.w = n ∧
        (∀ i, i < n → v.bitAt i = if i < a.w then a.bitAt i else false) ∧ v.lowUnsigned n = a.lowUnsigned a.w) ∧
      ∃ v : Value, exec (.signExtend a n) st = .next (succeed st (.value v)) ∧ v.w = n ∧
        (∀ i, i < n → v.bitAt i = if i < a.w then a.bitAt i else a.bitAt (a.w - 1)) ∧
        v.lowSigned n = a.lowSigned a.w) ∧
    (n ≤ a.w → exec (.zeroExtend a n) st = .next (raise st .directionError) ∧
      exec (.signExtend a n) st = .next (raise st .directionError))

/-- R143, R144: `truncate` keeps the low n bits of the operand given; n at or above the width fails with DirectionError and
n = 0 with RangeError. -/
def Obligations.TruncateKeepsTheLowBits : Prop :=
  ∀ (st : State) (a : Value) (n : Nat), a.wf = true → st.config.fits a.w = true →
    (1 ≤ n → n < a.w → ∃ v : Value, exec (.truncate a n) st = .next (succeed st (.value v)) ∧ v.w = n ∧
      (∀ i, i < n → v.bitAt i = a.bitAt i) ∧ v.b.toNat = a.b.toNat % 2 ^ n) ∧
    (a.w ≤ n → exec (.truncate a n) st = .next (raise st .directionError)) ∧
    (n = 0 → exec (.truncate a n) st = .next (raise st .rangeError))

/-- R224: `truncate(sign_extend(x, W2), width(x)) = x` for any W2 > width(x), and with `zero_extend` also. -/
def Obligations.ExtensionRoundTrip : Prop :=
  ∀ (st : State) (x : Value) (W2 : Nat), (Instr.signExtend x W2).wf st.config = true → x.w < W2 →
    (∃ y, Answers (.signExtend x W2) st (.value y) ∧ Answers (.truncate y x.w) st (.value x)) ∧
    ∃ y, Answers (.zeroExtend x W2) st (.value y) ∧ Answers (.truncate y x.w) st (.value x)

/-- The laws that tie the width changes together (41_width_change.md section on R145, marked derived there): extensions and
truncations compose, and splicing a truncation back gives the operand. -/
def Obligations.WidthChangesCompose : Prop :=
  ∀ (st : State) (x : Value), x.wf = true → st.config.fits x.w = true →
    (∀ m n, x.w < m → m < n → st.config.fits n = true →
      (∃ y z, Answers (.zeroExtend x m) st (.value y) ∧ Answers (.zeroExtend y n) st (.value z) ∧
        Answers (.zeroExtend x n) st (.value z)) ∧
      ∃ y z, Answers (.signExtend x m) st (.value y) ∧ Answers (.signExtend y n) st (.value z) ∧
        Answers (.signExtend x n) st (.value z)) ∧
    (∀ m n, 1 ≤ n → n < m → m < x.w →
      ∃ y z, Answers (.truncate x m) st (.value y) ∧ Answers (.truncate y n) st (.value z) ∧
        Answers (.truncate x n) st (.value z)) ∧
    ∀ n, 1 ≤ n → n < x.w → ∃ y, Answers (.truncate x n) st (.value y) ∧ Answers (.spliceLow x y) st (.value x)

/-! ## The sized-operation contract (42_arithmetic.md R151 to R153) -/

/-- R152, R252: the validation of every sized operation, first failing test first: widths unequal, then size above the
width, then size 0; the zero divisor is not looked at before them. -/
def Obligations.SizedOperationsValidateInOrder : Prop :=
  (∀ mk ∈ binaryValueOps ++ relationalOps, ∀ (st : State) (a b : Value) (size : Option Nat),
    (mk a b size).wf st.config = true →
      (a.w ≠ b.w → exec (mk a b size) st = .next (raise st .widthMismatchError)) ∧
      (a.w = b.w → ∀ n, size = some n →
        (a.w < n → exec (mk a b size) st = .next (raise st .widthMismatchError)) ∧
        (n = 0 → exec (mk a b size) st = .next (raise st .rangeError)))) ∧
  ∀ mk ∈ unarySizedOps, ∀ (st : State) (a : Value) (n : Nat), (mk a (some n)).wf st.config = true →
    (a.w < n → exec (mk a (some n)) st = .next (raise st .widthMismatchError)) ∧
    (n = 0 → exec (mk a (some n)) st = .next (raise st .rangeError))

/-- The size-prefix law (46_laws.md section on R227, marked derived there): a value result has the left operand's width and
its bits at and above the size. -/
def Obligations.SizedResultsKeepTheHighBits : Prop :=
  (∀ mk ∈ binaryValueOps, ∀ (st : State) (a b v : Value) (size : Option Nat) (n : Nat), LegalSize a.w size n →
    exec (mk a b size) st = .next (succeed st (.value v)) → KeepsHighBits a v n) ∧
  ∀ mk ∈ unarySizedOps, ∀ (st : State) (a v : Value) (size : Option Nat) (n : Nat), LegalSize a.w size n →
    exec (mk a size) st = .next (succeed st (.value v)) → KeepsHighBits a v n

/-- R152, R200: bits of the right operand at and above the size take no part in anything; nor do the left operand's in a
comparison. -/
def Obligations.HighBitsOfTheRightOperandAreIgnored : Prop :=
  (∀ mk ∈ binaryValueOps ++ relationalOps, ∀ (st : State) (a b b' : Value) (size : Option Nat) (n : Nat),
    LegalSize a.w size n → b.w = b'.w → (∀ i, i < n → b.bitAt i = b'.bitAt i) →
      exec (mk a b size) st = exec (mk a b' size) st) ∧
  ∀ mk ∈ relationalOps, ∀ (st : State) (a a' b : Value) (size : Option Nat) (n : Nat),
    LegalSize a.w size n → LegalSize a'.w size n → a.w = a'.w → (∀ i, i < n → a.bitAt i = a'.bitAt i) →
      exec (mk a b size) st = exec (mk a' b size) st

/-- A sized operation in terms of the unsized one (46_laws.md section on R228, marked derived there): at a size s below the
width it is `splice_low` of the operation on the truncated operands, failures included; a comparison is the comparison of
the truncated operands; a size omitted is the size that equals the width (R67). -/
def Obligations.SizedOperationIsSpliceOfTheTruncatedOne : Prop :=
  (∀ mk ∈ binaryValueOps ++ relationalOps, ∀ (st : State) (a b : Value), exec (mk a b none) st = exec (mk a b (some a.w)) st) ∧
  (∀ mk ∈ unarySizedOps, ∀ (st : State) (a : Value), exec (mk a none) st = exec (mk a (some a.w)) st) ∧
  ∀ (st : State) (a b : Value) (n : Nat), (Instr.add a b none).wf st.config = true → a.w = b.w → 1 ≤ n → n < a.w →
    ∃ ta tb : Value, Answers (.truncate a n) st (.value ta) ∧ Answers (.truncate b n) st (.value tb) ∧
      (∀ mk ∈ binaryValueOps,
        (∃ y v, Answers (mk ta tb none) st (.value y) ∧ Answers (.spliceLow a y) st (.value v) ∧
          Answers (mk a b (some n)) st (.value v)) ∨
        ∃ k, FailsWith (mk ta tb none) st k ∧ FailsWith (mk a b (some n)) st k) ∧
      (∀ mk ∈ unarySizedOps, ∃ y v, Answers (mk ta none) st (.value y) ∧ Answers (.spliceLow a y) st (.value v) ∧
        Answers (mk a (some n)) st (.value v)) ∧
      ∀ mk ∈ relationalOps, exec (mk a b (some n)) st = exec (mk ta tb none) st

/-! ## Arithmetic (42_arithmetic.md R154 to R164) -/

/-- R154, R155, R156: sum, difference (the left operand is the minuend) and product of the low fields, modulo 2^size; the
left operand's width and its bits above the size. -/
def Obligations.AddSubMulWrapAtTheSize : Prop :=
  ∀ (st : State) (a b : Value) (size : Option Nat) (n : Nat), (Instr.add a b size).wf st.config = true →
    a.w = b.w → LegalSize a.w size n →
    (∃ v : Value, exec (.add a b size) st = .next (succeed st (.value v)) ∧ KeepsHighBits a v n ∧
      v.lowUnsigned n = (a.lowUnsigned n + b.lowUnsigned n) % 2 ^ n) ∧
    (∃ v : Value, exec (.sub a b size) st = .next (succeed st (.value v)) ∧ KeepsHighBits a v n ∧
      (v.lowUnsigned n : Int) = ((a.lowUnsigned n : Int) - b.lowUnsigned n) % 2 ^ n) ∧
    ∃ v : Value, exec (.mul a b size) st = .next (succeed st (.value v)) ∧ KeepsHighBits a v n ∧
      v.lowUnsigned n = (a.lowUnsigned n * b.lowUnsigned n) % 2 ^ n

/-- The signed readings give the same bits (R154 to R156, decision D28): sum, difference and product of the signed low
fields, modulo 2^size. -/
def Obligations.AddSubMulAgreeWithSignedReadings : Prop :=
  ∀ (st : State) (a b : Value) (size : Option Nat) (n : Nat), (Instr.add a b size).wf st.config = true →
    a.w = b.w → LegalSize a.w size n →
    (∃ v : Value, Answers (.add a b size) st (.value v) ∧
      (v.lowUnsigned n : Int) = (a.lowSigned n + b.lowSigned n) % 2 ^ n) ∧
    (∃ v : Value, Answers (.sub a b size) st (.value v) ∧
      (v.lowUnsigned n : Int) = (a.lowSigned n - b.lowSigned n) % 2 ^ n) ∧
    ∃ v : Value, Answers (.mul a b size) st (.value v) ∧
      (v.lowUnsigned n : Int) = (a.lowSigned n * b.lowSigned n) % 2 ^ n

/-- R157, R158: quotient and remainder of the unsigned low fields, for a divisor whose low field is not zero: dividend =
divisor * quotient + remainder with the remainder below the divisor. -/
def Obligations.UnsignedDivision : Prop :=
  ∀ (st : State) (a b : Value) (size : Option Nat) (n : Nat), (Instr.udiv a b size).wf st.config = true →
    a.w = b.w → LegalSize a.w size n → b.lowUnsigned n ≠ 0 →
    ∃ q r : Value, exec (.udiv a b size) st = .next (succeed st (.value q)) ∧
      exec (.urem a b size) st = .next (succeed st (.value r)) ∧ KeepsHighBits a q n ∧ KeepsHighBits a r n ∧
      a.lowUnsigned n = b.lowUnsigned n * q.lowUnsigned n + r.lowUnsigned n ∧ r.lowUnsigned n < b.lowUnsigned n

/-- R160, R161: the signed quotient rounded toward zero and the remainder that goes with it: zero or of the dividend's sign,
smaller than the divisor in magnitude; the quotient is kept modulo 2^size. -/
def Obligations.SignedDivisionRoundsTowardZero : Prop :=
  ∀ (st : State) (a b : Value) (size : Option Nat) (n : Nat), (Instr.sdiv a b size).wf st.config = true →
    a.w = b.w → LegalSize a.w size n → b.lowUnsigned n ≠ 0 →
    ∃ (q r : Value) (quot : Int), exec (.sdiv a b size) st = .next (succeed st (.value q)) ∧
      exec (.srem a b size) st = .next (succeed st (.value r)) ∧ KeepsHighBits a q n ∧ KeepsHighBits a r n ∧
      (q.lowUnsigned n : Int) = quot % 2 ^ n ∧
      a.lowSigned n = b.lowSigned n * quot + r.lowSigned n ∧ (r.lowSigned n).natAbs < (b.lowSigned n).natAbs ∧
      (r.lowSigned n = 0 ∨ (0 < r.lowSigned n ↔ 0 < a.lowSigned n))

/-- The one signed overflow wraps (42_arithmetic.md section 4, the sentences on R162 marked derived there): the most
negative dividend by -1 gives the dividend's own bits, remainder 0; and no other quotient leaves the signed range. -/
def Obligations.SignedOverflowWraps : Prop :=
  ∀ (st : State) (a b q : Value) (size : Option Nat) (n : Nat), (Instr.sdiv a b size).wf st.config = true →
    a.w = b.w → LegalSize a.w size n → b.lowUnsigned n ≠ 0 → Answers (.sdiv a b size) st (.value q) →
    (a.lowSigned n = -2 ^ (n - 1) → b.lowSigned n = -1 →
      q = a ∧ ∃ r, Answers (.srem a b size) st (.value r) ∧ r.lowUnsigned n = 0) ∧
    (¬ (a.lowSigned n = -2 ^ (n - 1) ∧ b.lowSigned n = -1) →
      ∃ r, Answers (.srem a b size) st (.value r) ∧ a.lowSigned n = b.lowSigned n * q.lowSigned n + r.lowSigned n)

/-- R245: DivisionByZeroError has one cause, a division or remainder, past the validation, whose right operand's low field is
zero; no other operation raises it. -/
def Obligations.DivisionByZeroExactly : Prop :=
  ∀ (i : Instr) (st : State), i.wf st.config = true →
    (exec i st = .next (raise st .divisionByZeroError) ↔
      ∃ mk ∈ divisionOps, ∃ (a b : Value) (size : Option Nat) (n : Nat), i = mk a b size ∧ a.w = b.w ∧
        LegalSize a.w size n ∧ b.lowUnsigned n = 0)

/-- One value as both operands (42_arithmetic.md section 4, the sentences on R164 marked derived there): the difference has
zero low bits; the quotients are 1 and the remainders 0 unless the field is zero, and then all four fail. At size 1 the
signed quotient 1 is the one bit set. -/
def Obligations.SameValueAsBothOperands : Prop :=
  ∀ (st : State) (x : Value) (size : Option Nat) (n : Nat), x.wf = true → st.config.fits x.w = true →
    LegalSize x.w size n →
    (∃ v, Answers (.sub x x size) st (.value v) ∧ v.lowUnsigned n = 0) ∧
    (x.lowUnsigned n = 0 → ∀ mk ∈ divisionOps, FailsWith (mk x x size) st .divisionByZeroError) ∧
    (x.lowUnsigned n ≠ 0 →
      (∃ v, Answers (.udiv x x size) st (.value v) ∧ v.lowUnsigned n = 1) ∧
      (∃ v, Answers (.sdiv x x size) st (.value v) ∧ v.lowUnsigned n = 1) ∧
      (∃ v, Answers (.urem x x size) st (.value v) ∧ v.lowUnsigned n = 0) ∧
      ∃ v, Answers (.srem x x size) st (.value v) ∧ v.lowUnsigned n = 0)

/-! ## Bitwise operations and shifts (43_bitwise.md, 44_shift.md) -/

/-- R181 to R184: bit by bit over the low field, the bits above it the left operand's. -/
def Obligations.BitwiseOperationsBitByBit : Prop :=
  ∀ (st : State) (a b : Value) (size : Option Nat) (n : Nat), (Instr.bitAnd a b size).wf st.config = true →
    LegalSize a.w size n →
    (a.w = b.w →
      (∃ v : Value, exec (.bitAnd a b size) st = .next (succeed st (.value v)) ∧ KeepsHighBits a v n ∧
        ∀ i, i < n → v.bitAt i = (a.bitAt i && b.bitAt i)) ∧
      (∃ v : Value, exec (.bitOr a b size) st = .next (succeed st (.value v)) ∧ KeepsHighBits a v n ∧
        ∀ i, i < n → v.bitAt i = (a.bitAt i || b.bitAt i)) ∧
      ∃ v : Value, exec (.bitXor a b size) st = .next (succeed st (.value v)) ∧ KeepsHighBits a v n ∧
        ∀ i, i < n → v.bitAt i = (a.bitAt i ^^ b.bitAt i)) ∧
    ∃ v : Value, exec (.bitNot a size) st = .next (succeed st (.value v)) ∧ KeepsHighBits a v n ∧
      ∀ i, i < n → v.bitAt i = !a.bitAt i

/-- R191 to R193: each shift moves the low field by one position; no bit crosses the boundary at the size. -/
def Obligations.ShiftsMoveOnePosition : Prop :=
  ∀ (st : State) (a : Value) (size : Option Nat) (n : Nat), a.wf = true → st.config.fits a.w = true →
    LegalSize a.w size n →
    (∃ v : Value, exec (.shiftLeft a size) st = .next (succeed st (.value v)) ∧ KeepsHighBits a v n ∧
      v.bitAt 0 = false ∧ ∀ i, 1 ≤ i → i < n → v.bitAt i = a.bitAt (i - 1)) ∧
    (∃ v : Value, exec (.logicalShiftRight a size) st = .next (succeed st (.value v)) ∧ KeepsHighBits a v n ∧
      v.bitAt (n - 1) = false ∧ ∀ i, i < n - 1 → v.bitAt i = a.bitAt (i + 1)) ∧
    ∃ v : Value, exec (.arithmeticShiftRight a size) st = .next (succeed st (.value v)) ∧ KeepsHighBits a v n ∧
      v.bitAt (n - 1) = a.bitAt (n - 1) ∧ ∀ i, i < n - 1 → v.bitAt i = a.bitAt (i + 1)

/-- R191 to R193, corner cases: a left shift doubles modulo 2^size and equals `add(a, a)`; the right shifts halve the
unsigned and the signed reading, both rounding down. -/
def Obligations.ShiftsDoubleAndHalve : Prop :=
  ∀ (st : State) (a : Value) (size : Option Nat) (n : Nat), a.wf = true → st.config.fits a.w = true →
    LegalSize a.w size n →
    (exec (.shiftLeft a size) st = exec (.add a a size) st) ∧
    (∃ v, Answers (.shiftLeft a size) st (.value v) ∧ v.lowUnsigned n = 2 * a.lowUnsigned n % 2 ^ n) ∧
    (∃ v, Answers (.logicalShiftRight a size) st (.value v) ∧ v.lowUnsigned n = a.lowUnsigned n / 2) ∧
    ∃ v, Answers (.arithmeticShiftRight a size) st (.value v) ∧ v.lowSigned n = a.lowSigned n / 2

/-- A shift by c positions is c requests (44_shift.md section on R194, marked derived there): after at least s_eff left or
logical right shifts the field is zero, after at least s_eff - 1 arithmetic right shifts every bit of it is the sign bit. -/
def Obligations.RepeatedShiftsEmptyTheField : Prop :=
  ∀ (st : State) (size : Option Nat) (n c : Nat) (x : Nat → Value), LegalSize (x 0).w size n →
    ((∀ j, j < c → Answers (.shiftLeft (x j) size) st (.value (x (j + 1)))) → n ≤ c → (x c).lowUnsigned n = 0) ∧
    ((∀ j, j < c → Answers (.logicalShiftRight (x j) size) st (.value (x (j + 1)))) → n ≤ c → (x c).lowUnsigned n = 0) ∧
    ((∀ j, j < c → Answers (.arithmeticShiftRight (x j) size) st (.value (x (j + 1)))) → n - 1 ≤ c →
      ∀ i, i < n → (x c).bitAt i = (x 0).bitAt (n - 1))

/-! ## Comparisons (45_relational.md R200 to R211) -/

/-- R201, R202: `eq` is true exactly when every bit of the low fields agrees, `neq` exactly when one does not. -/
def Obligations.EqualityOfTheLowFields : Prop :=
  ∀ (st : State) (a b : Value) (size : Option Nat) (n : Nat), (Instr.eq a b size).wf st.config = true →
    a.w = b.w → LegalSize a.w size n →
    (∃ e : Bool, exec (.eq a b size) st = .next (succeed st (.bool e)) ∧
      (e = true ↔ ∀ i, i < n → a.bitAt i = b.bitAt i)) ∧
    ∃ e : Bool, exec (.neq a b size) st = .next (succeed st (.bool e)) ∧
      (e = true ↔ ∃ i, i < n ∧ a.bitAt i ≠ b.bitAt i)

/-- R203 to R206: the unsigned comparisons compare the unsigned readings of the low fields. -/
def Obligations.UnsignedComparisons : Prop :=
  ∀ (st : State) (a b : Value) (size : Option Nat) (n : Nat), (Instr.ult a b size).wf st.config = true →
    a.w = b.w → LegalSize a.w size n →
    exec (.ult a b size) st = .next (succeed st (.bool (decide (a.lowUnsigned n < b.lowUnsigned n)))) ∧
    exec (.ule a b size) st = .next (succeed st (.bool (decide (a.lowUnsigned n ≤ b.lowUnsigned n)))) ∧
    exec (.ugt a b size) st = .next (succeed st (.bool (decide (a.lowUnsigned n > b.lowUnsigned n)))) ∧
    exec (.uge a b size) st = .next (succeed st (.bool (decide (a.lowUnsigned n ≥ b.lowUnsigned n))))

/-- R207 to R210: the signed comparisons compare the signed readings of the low fields, the sign at the field's top bit. -/
def Obligations.SignedComparisons : Prop :=
  ∀ (st : State) (a b : Value) (size : Option Nat) (n : Nat), (Instr.slt a b size).wf st.config = true →
    a.w = b.w → LegalSize a.w size n →
    exec (.slt a b size) st = .next (succeed st (.bool (decide (a.lowSigned n < b.lowSigned n)))) ∧
    exec (.sle a b size) st = .next (succeed st (.bool (decide (a.lowSigned n ≤ b.lowSigned n)))) ∧
    exec (.sgt a b size) st = .next (succeed st (.bool (decide (a.lowSigned n > b.lowSigned n)))) ∧
    exec (.sge a b size) st = .next (succeed st (.bool (decide (a.lowSigned n ≥ b.lowSigned n))))

/-- R226: exactly one of `ult(a, b)`, `eq(a, b)`, `ult(b, a)` is true for operands of equal width and every legal size, and
so with `slt`; for operands of different width all fail. -/
def Obligations.ComparisonsFormATotalOrder : Prop :=
  ∀ (st : State) (a b : Value) (size : Option Nat), (Instr.eq a b size).wf st.config = true →
    (∀ n, a.w = b.w → LegalSize a.w size n →
      ∀ lt ∈ ([.ult, .slt] : List (Value → Value → Option Nat → Instr)),
        ∃ p q r : Bool, Answers (lt a b size) st (.bool p) ∧ Answers (.eq a b size) st (.bool q) ∧
          Answers (lt b a size) st (.bool r) ∧ p.toNat + q.toNat + r.toNat = 1) ∧
    (a.w ≠ b.w → FailsWith (.eq a b size) st .widthMismatchError ∧
      ∀ lt ∈ ([.ult, .slt] : List (Value → Value → Option Nat → Instr)),
        FailsWith (lt a b size) st .widthMismatchError ∧ FailsWith (lt b a size) st .widthMismatchError)

/-- The two levels of comparison (45_relational.md section on R211, marked derived there): equal at equal widths with the
size omitted; across widths `value_eq` answers false and every other comparison fails. -/
def Obligations.ValueLevelAndSizedComparisonsAgree : Prop :=
  ∀ (st : State) (a b : Value), (Instr.eq a b none).wf st.config = true →
    (a.w = b.w → exec (.valueEq a b) st = exec (.eq a b none) st ∧ exec (.valueLt a b) st = exec (.ult a b none) st) ∧
    (a.w ≠ b.w → Answers (.valueEq a b) st (.bool false) ∧ FailsWith (.valueLt a b) st .widthMismatchError ∧
      ∀ mk ∈ relationalOps, ∀ size, FailsWith (mk a b size) st .widthMismatchError)

/-! ## The laws of 46_laws.md -/

/-- Extension invariance under sign extension (R221): the operation at width W on two operands equals the operation on the
sign-extended operands at any larger width, truncated back, the two failing together (a), (b); a comparison is unchanged (c);
and it does not hold of `udiv`, `urem` and `logical_shift_right`, by the counterexamples of (d), stated of the instance
`State.reset` describes (unbounded widths: the model's choice, log entry 5). -/
def Obligations.SignExtensionInvariance : Prop :=
  (∀ (st : State) (x y : Value) (W' : Nat), (Instr.add x y none).wf st.config = true → x.w = y.w → x.w < W' →
    st.config.fits W' = true →
    ∃ x' y' : Value, Answers (.signExtend x W') st (.value x') ∧ Answers (.signExtend y W') st (.value y') ∧
      (∀ mk ∈ ([.add, .sub, .mul, .bitAnd, .bitOr, .bitXor] : List (Value → Value → Option Nat → Instr)),
        ∃ z v, Answers (mk x' y' none) st (.value z) ∧ Answers (.truncate z x.w) st (.value v) ∧
          Answers (mk x y none) st (.value v)) ∧
      (∀ mk ∈ ([.sdiv, .srem] : List (Value → Value → Option Nat → Instr)),
        (∃ z v, Answers (mk x' y' none) st (.value z) ∧ Answers (.truncate z x.w) st (.value v) ∧
          Answers (mk x y none) st (.value v)) ∨
        (FailsWith (mk x' y' none) st .divisionByZeroError ∧ FailsWith (mk x y none) st .divisionByZeroError)) ∧
      (∀ mk ∈ ([.bitNot, .shiftLeft, .arithmeticShiftRight] : List (Value → Option Nat → Instr)),
        ∃ z v, Answers (mk x' none) st (.value z) ∧ Answers (.truncate z x.w) st (.value v) ∧
          Answers (mk x none) st (.value v)) ∧
      ∀ mk ∈ relationalOps, exec (mk x' y' none) st = exec (mk x y none) st) ∧
  (Answers (.signExtend ⟨3, 0b100#3⟩ 4) .reset (.value ⟨4, 0b1100#4⟩) ∧
    Answers (.signExtend ⟨3, 0b010#3⟩ 4) .reset (.value ⟨4, 0b0010#4⟩) ∧
    Answers (.signExtend ⟨3, 0b011#3⟩ 4) .reset (.value ⟨4, 0b0011#4⟩) ∧
    Answers (.signExtend ⟨1, 0b1#1⟩ 2) .reset (.value ⟨2, 0b11#2⟩)) ∧
  (Answers (.udiv ⟨3, 0b100#3⟩ ⟨3, 0b010#3⟩ none) .reset (.value ⟨3, 0b010#3⟩) ∧
    Answers (.udiv ⟨4, 0b1100#4⟩ ⟨4, 0b0010#4⟩ none) .reset (.value ⟨4, 0b0110#4⟩) ∧
    Answers (.truncate ⟨4, 0b0110#4⟩ 3) .reset (.value ⟨3, 0b110#3⟩)) ∧
  (Answers (.urem ⟨3, 0b100#3⟩ ⟨3, 0b011#3⟩ none) .reset (.value ⟨3, 0b001#3⟩) ∧
    Answers (.urem ⟨4, 0b1100#4⟩ ⟨4, 0b0011#4⟩ none) .reset (.value ⟨4, 0b0000#4⟩) ∧
    Answers (.truncate ⟨4, 0b0000#4⟩ 3) .reset (.value ⟨3, 0b000#3⟩)) ∧
  Answers (.logicalShiftRight ⟨1, 0b1#1⟩ none) .reset (.value ⟨1, 0b0#1⟩) ∧
  Answers (.logicalShiftRight ⟨2, 0b11#2⟩ none) .reset (.value ⟨2, 0b01#2⟩) ∧
  Answers (.truncate ⟨2, 0b01#2⟩ 1) .reset (.value ⟨1, 0b1#1⟩)

/-- The zero-extension counterpart (46_laws.md section on R222, marked derived there), for the operations it
holds of; and for `sdiv`, `srem`, `arithmetic_shift_right` and the signed comparisons, operands for which it does not hold, in
the instance `State.reset` describes (log entry 5). -/
def Obligations.ZeroExtensionInvariance : Prop :=
  (∀ (st : State) (x y : Value) (W' : Nat), (Instr.add x y none).wf st.config = true → x.w = y.w → x.w < W' →
    st.config.fits W' = true →
    ∃ x' y' : Value, Answers (.zeroExtend x W') st (.value x') ∧ Answers (.zeroExtend y W') st (.value y') ∧
      (∀ mk ∈ ([.add, .sub, .mul, .bitAnd, .bitOr, .bitXor] : List (Value → Value → Option Nat → Instr)),
        ∃ z v, Answers (mk x' y' none) st (.value z) ∧ Answers (.truncate z x.w) st (.value v) ∧
          Answers (mk x y none) st (.value v)) ∧
      (∀ mk ∈ ([.udiv, .urem] : List (Value → Value → Option Nat → Instr)),
        (∃ z v, Answers (mk x' y' none) st (.value z) ∧ Answers (.truncate z x.w) st (.value v) ∧
          Answers (mk x y none) st (.value v)) ∨
        (FailsWith (mk x' y' none) st .divisionByZeroError ∧ FailsWith (mk x y none) st .divisionByZeroError)) ∧
      (∀ mk ∈ ([.bitNot, .shiftLeft, .logicalShiftRight] : List (Value → Option Nat → Instr)),
        ∃ z v, Answers (mk x' none) st (.value z) ∧ Answers (.truncate z x.w) st (.value v) ∧
          Answers (mk x none) st (.value v)) ∧
      ∀ mk ∈ ([.eq, .neq, .ult, .ule, .ugt, .uge] : List (Value → Value → Option Nat → Instr)),
        exec (mk x' y' none) st = exec (mk x y none) st) ∧
  (∀ mk ∈ ([.sdiv, .srem] : List (Value → Value → Option Nat → Instr)), ∃ x y x' y' z v v' : Value,
    Answers (.zeroExtend x x'.w) .reset (.value x') ∧ Answers (.zeroExtend y x'.w) .reset (.value y') ∧
      Answers (mk x' y' none) .reset (.value z) ∧ Answers (.truncate z x.w) .reset (.value v) ∧
      Answers (mk x y none) .reset (.value v') ∧ v ≠ v') ∧
  (∃ x x' z v v' : Value, Answers (.zeroExtend x x'.w) .reset (.value x') ∧
    Answers (.arithmeticShiftRight x' none) .reset (.value z) ∧ Answers (.truncate z x.w) .reset (.value v) ∧
    Answers (.arithmeticShiftRight x none) .reset (.value v') ∧ v ≠ v') ∧
  ∀ mk ∈ ([.slt, .sle, .sgt, .sge] : List (Value → Value → Option Nat → Instr)), ∃ (x y x' y' : Value) (e e' : Bool),
    Answers (.zeroExtend x x'.w) .reset (.value x') ∧ Answers (.zeroExtend y x'.w) .reset (.value y') ∧
      Answers (mk x' y' none) .reset (.bool e) ∧ Answers (mk x y none) .reset (.bool e') ∧ e ≠ e'

/-! ## Failures (60_exceptions.md R242 to R249) -/

/-- R244: DirectionError, every cause: an extension to n <= a.w, a truncation to n >= a.w; no other operation raises it. -/
def Obligations.DirectionErrorExactly : Prop :=
  ∀ (i : Instr) (st : State), i.wf st.config = true →
    (exec i st = .next (raise st .directionError) ↔
      ∃ (a : Value) (n : Nat), (i = .zeroExtend a n ∧ n ≤ a.w) ∨ (i = .signExtend a n ∧ n ≤ a.w) ∨
        (i = .truncate a n ∧ a.w ≤ n))

/-- R247: IndexError, one cause: `bit` with k < 0 or k >= a.w; `bit` is the only operation that can raise it. -/
def Obligations.IndexErrorExactly : Prop :=
  ∀ (i : Instr) (st : State), i.wf st.config = true →
    (exec i st = .next (raise st .indexError) ↔ ∃ (a : Value) (k : Int), i = .bit a k ∧ (k < 0 ∨ (a.w : Int) ≤ k))

/-- R242: RangeError, every cause: a constructor's width 0, an integer outside the accepted range, a sequence too long,
`truncate` to width 0, and an explicit size 0 (of operands of equal width, R252). -/
def Obligations.RangeErrorExactly : Prop :=
  ∀ (i : Instr) (st : State), i.wf st.config = true →
    (exec i st = .next (raise st .rangeError) ↔
      i = .zero 0 ∨
      (∃ k n, i = .fromInteger k n ∧ (n = 0 ∨ k < -2 ^ (n - 1) ∨ 2 ^ n ≤ k ∨
        (st.config.band = .reject ∧ 2 ^ (n - 1) ≤ k))) ∨
      (∃ seq n, i = .fromBits seq n ∧ (n = 0 ∨ n < seq.length)) ∨
      (∃ a, i = .truncate a 0) ∨
      (∃ mk ∈ unarySizedOps, ∃ a, i = mk a (some 0)) ∨
      ∃ mk ∈ binaryValueOps ++ relationalOps, ∃ a b, i = mk a b (some 0) ∧ a.w = b.w)

/-- R243: WidthMismatchError, every cause: a binary sized operation of unequal widths, any sized operation with an explicit
size above the width, `value_lt` of unequal widths, `splice_low` of a wider right operand; `value_eq` never raises it. -/
def Obligations.WidthMismatchErrorExactly : Prop :=
  ∀ (i : Instr) (st : State), i.wf st.config = true →
    (exec i st = .next (raise st .widthMismatchError) ↔
      (∃ mk ∈ binaryValueOps ++ relationalOps, ∃ a b size, i = mk a b size ∧
        (a.w ≠ b.w ∨ ∃ n, size = some n ∧ a.w < n)) ∨
      (∃ mk ∈ unarySizedOps, ∃ a n, i = mk a (some n) ∧ a.w < n) ∨
      (∃ a b, i = .valueLt a b ∧ a.w ≠ b.w) ∨
      ∃ a b, i = .spliceLow a b ∧ a.w < b.w)
end

