-- ==== Sys2Proof/Laws/Decode.lean ====
section
/-! SUPPORT. What looking an op code up and assembling an instruction can do, said once. -/

namespace Sys2Proof

/-- An operation is found under its own code. -/
theorem Op.ofCode_code (o : Op) : Op.ofCode o.code = some o := by cases o <;> rfl

/-- What is found under a code has that code (30_encoding.md R65: all 8 bits select). -/
theorem Op.code_of_ofCode {c : BitVec 8} {o : Op} (h : Op.ofCode c = some o) : o.code = c := by
  simpa using List.find?_some h

/-- Nothing is found under a code exactly when it is no operation's (R70). -/
theorem Op.ofCode_eq_none_iff {c : BitVec 8} : Op.ofCode c = none ↔ ∀ o : Op, o.code ≠ c := by
  constructor
  · rintro h o rfl
    simp [Op.ofCode_code] at h
  · intro h
    cases e : Op.ofCode c with
    | none => rfl
    | some o => exact absurd (Op.code_of_ofCode e) (h o)

/-- Assembling the operands of an operation gives that operation. -/
@[simp] theorem assemble_op (o : Op) (r : Request) : (assemble o r).op = o := by cases o <;> rfl

/-- The decoded size is the explicit one when `sz_en` is set, whatever `size` holds otherwise (R67). -/
theorem sizeOperand_eq {r : Request} {b : Bool} {n : Nat} (h : r.szEn = b) (h' : r.szEn = true → r.size = n) :
    r.sizeOperand = if b then some n else none := by
  subst h
  unfold Request.sizeOperand
  split <;> simp_all

end Sys2Proof
end

