-- ==== Sys2Proof/Laws/State.lean ====
section
/-! SUPPORT. What each update of the state does to each field, so that no proof unfolds a record update. -/

namespace Sys2Proof.Machine

@[simp] theorem respond_config (st : State) (r : Response) : (respond st r).config = st.config := rfl
@[simp] theorem respond_pending (st : State) (r : Response) : (respond st r).pending = st.pending := rfl
@[simp] theorem respond_response (st : State) (r : Response) : (respond st r).response = some r := rfl

@[simp] theorem succeed_config (st : State) (r : Result) : (succeed st r).config = st.config := rfl
@[simp] theorem succeed_pending (st : State) (r : Result) : (succeed st r).pending = st.pending := rfl
@[simp] theorem succeed_response (st : State) (r : Result) : (succeed st r).response = some (.ok r) := rfl

@[simp] theorem raise_config (st : State) (k : FailureKind) : (raise st k).config = st.config := rfl
@[simp] theorem raise_pending (st : State) (k : FailureKind) : (raise st k).pending = st.pending := rfl
@[simp] theorem raise_response (st : State) (k : FailureKind) : (raise st k).response = some (.failure k) := rfl

@[simp] theorem withFetchWord_config (st : State) (nbits w : Nat) : (st.withFetchWord nbits w).config = st.config := rfl
@[simp] theorem withFetchWord_response (st : State) (nbits w : Nat) :
    (st.withFetchWord nbits w).response = st.response := rfl
@[simp] theorem withFetchWord_pending (st : State) (nbits w : Nat) :
    (st.withFetchWord nbits w).pending = tableRequest nbits w :: st.pending := rfl

@[simp] theorem reset_pending : State.reset.pending = [] := rfl
@[simp] theorem reset_response : State.reset.response = none := rfl
@[simp] theorem reset_config : State.reset.config = Config.standard := rfl

/-- A failure is a response like any other: the state it leaves is the state a response leaves. -/
theorem raise_eq_respond (st : State) (k : FailureKind) : raise st k = respond st (.failure k) := rfl

theorem succeed_eq_respond (st : State) (r : Result) : succeed st r = respond st (.ok r) := rfl

end Sys2Proof.Machine
end

