-- ==== Sys2Proof/Laws/Ops.lean ====
section
/-! SUPPORT. What each shared operation does, said once: the readings of a bit-string, the splice, the validation of a
sized operation, and answering a request. -/

namespace Sys2Proof

/-- Two values are equal when their widths and their unsigned readings are. -/
theorem Value.eq_of_toNat {x y : Value} (hw : x.w = y.w) (hb : x.b.toNat = y.b.toNat) : x = y := by
  obtain ⟨w, b⟩ := x
  obtain ⟨w', b'⟩ := y
  obtain rfl : w = w' := hw
  obtain rfl : b = b' := BitVec.eq_of_toNat_eq hb
  rfl

/-- Two values are equal when their widths and all their bits are. -/
theorem Value.eq_of_bits {x y : Value} (hw : x.w = y.w) (hb : ∀ i, i < x.w → x.bitAt i = y.bitAt i) : x = y := by
  obtain ⟨w, b⟩ := x
  obtain ⟨w', b'⟩ := y
  obtain rfl : w = w' := hw
  obtain rfl : b = b' := BitVec.eq_of_getLsbD_eq hb
  rfl

theorem Value.bitAt_of_ge (v : Value) {i : Nat} (h : v.w ≤ i) : v.bitAt i = false :=
  BitVec.getLsbD_of_ge _ _ h

theorem Value.bitAt_eq_testBit (v : Value) (i : Nat) : v.bitAt i = v.b.toNat.testBit i := rfl

theorem Value.lowUnsigned_width (v : Value) : v.lowUnsigned v.w = v.b.toNat :=
  Nat.mod_eq_of_lt v.b.isLt

theorem Value.lowUnsigned_lt (v : Value) (n : Nat) : v.lowUnsigned n < 2 ^ n := Nat.mod_lt _ (Nat.two_pow_pos n)

theorem Value.testBit_lowUnsigned (v : Value) (n i : Nat) :
    (v.lowUnsigned n).testBit i = (decide (i < n) && v.bitAt i) := by
  simp [Value.lowUnsigned, Value.bitAt_eq_testBit, Nat.testBit_mod_two_pow]

end Sys2Proof

namespace Sys2Proof.Machine

theorem bv_toNat (n : Nat) (k : Int) : (bv n k).toNat = (k % 2 ^ n).toNat := by
  simp [bv, BitVec.toNat_ofInt]

theorem bv_natCast (n k : Nat) : bv n (k : Int) = BitVec.ofNat n k := by
  simp [bv]

/-- `s(x)` is the usual two's-complement reading. -/
theorem signed_eq_toInt {n : Nat} (x : BitVec n) : signed x = x.toInt := by
  unfold signed bitAt unsigned
  rcases Nat.eq_zero_or_pos n with rfl | h
  · simp [BitVec.of_length_zero]
  · rw [BitVec.toInt_eq_msb_cond, BitVec.msb_eq_getLsbD_last]
    push_cast
    rfl

theorem zext_eq_setWidth {m n : Nat} (x : BitVec m) : zext n x = x.setWidth n := by
  apply BitVec.eq_of_toNat_eq
  simp [zext, bv_natCast, unsigned]

theorem sext_eq_signExtend {m n : Nat} (x : BitVec m) : sext n x = x.signExtend n := by
  simp [sext, bv, signed_eq_toInt, BitVec.signExtend]

/-- `trem` is the remainder of the truncating division. -/
theorem trem_eq_tmod (x y : Int) : trem x y = Int.tmod x y := by
  simp only [trem, tdiv]
  have := Int.mul_tdiv_add_tmod x y
  omega

theorem getLsbD_low (a : Value) (n i : Nat) : (low a n).getLsbD i = (decide (i < n) && a.bitAt i) := by
  simp [low, slice, Value.bitAt]

/-- The unsigned reading of a selected operand (R152). -/
theorem unsigned_low (a : Value) (n : Nat) : unsigned (low a n) = a.lowUnsigned n := by
  simp [unsigned, low, slice, Value.lowUnsigned]

/-- The signed reading of a selected operand, its sign at bit n - 1 (R160, decision D29). -/
theorem signed_low (a : Value) {n : Nat} (h : 1 ≤ n) : signed (low a n) = a.lowSigned n := by
  have hb : bitAt (low a n) (n - 1) = a.bitAt (n - 1) := by
    rw [bitAt, getLsbD_low]
    simp [show n - 1 < n by omega]
  simp [signed, Value.lowSigned, hb, unsigned_low]

@[simp] theorem splice_w (x : Value) {m : Nat} (r : BitVec m) : (splice x r).w = x.w := rfl

/-- The splice, bit by bit (40_value.md R114): r below bit m, x's own bits from there up. -/
theorem splice_bitAt (x : Value) {m : Nat} (r : BitVec m) (h : m ≤ x.w) (i : Nat) :
    (splice x r).bitAt i = if i < m then r.getLsbD i else x.bitAt i := by
  have hx : ∀ i, x.w ≤ i → x.b.getLsbD i = false := fun i hi => BitVec.getLsbD_of_ge _ _ hi
  simp only [splice, slice, Value.bitAt, BitVec.getLsbD_setWidth, BitVec.getLsbD_append, BitVec.getLsbD_extractLsb']
  split
  · simp; omega
  · by_cases hi : i < x.w
    · have : i - m < x.w - m := by omega
      simp [hi, this, show m + (i - m) = i by omega]
    · simp [hi, hx i (by omega)]

theorem splice_keepsHighBits (x : Value) {m : Nat} (r : BitVec m) (h : m ≤ x.w) : KeepsHighBits x (splice x r) m := by
  refine ⟨rfl, fun i hi => ?_⟩
  rw [splice_bitAt x r h, if_neg (by omega)]

/-- The low field of a splice is what was spliced in. -/
theorem splice_lowUnsigned (x : Value) {m : Nat} (r : BitVec m) (h : m ≤ x.w) : (splice x r).lowUnsigned m = r.toNat := by
  apply Nat.eq_of_testBit_eq
  intro i
  rw [Value.testBit_lowUnsigned, splice_bitAt x r h]
  by_cases hi : i < m
  · simp [hi, BitVec.getLsbD]
  · simp [hi, Nat.testBit_lt_two_pow (Nat.lt_of_lt_of_le r.isLt (Nat.pow_le_pow_right (by omega) (by omega : m ≤ i)))]

/-- A full-width splice keeps nothing of the operand (R153). -/
theorem splice_full (x : Value) (r : BitVec x.w) : splice x r = ⟨x.w, r⟩ := by
  refine Value.eq_of_bits (y := ⟨x.w, r⟩) rfl fun i hi => ?_
  rw [splice_bitAt x r (Nat.le_refl _), if_pos (by simpa using hi)]
  rfl

@[simp] theorem require_true (k : FailureKind) (rest : Response) : require true k rest = rest := rfl
@[simp] theorem require_false (k : FailureKind) (rest : Response) : require false k rest = .failure k := rfl

/-- A rule answers with a result exactly when its precondition holds and the rest of it does. -/
theorem require_eq_ok {c : Bool} {k : FailureKind} {rest : Response} {r : Result} :
    require c k rest = .ok r ↔ c = true ∧ rest = .ok r := by
  cases c <;> simp

theorem require_eq_failure {c : Bool} {k k' : FailureKind} {rest : Response} :
    require c k rest = .failure k' ↔ (c = false ∧ k = k') ∨ (c = true ∧ rest = .failure k') := by
  cases c <;> simp

/-- What the size tests can do (R152). -/
theorem requireSize_cases (w : Nat) (size : Option Nat) (body : Nat → Response) :
    (w < effectiveSize w size ∧ requireSize w size body = .failure .widthMismatchError) ∨
    (effectiveSize w size = 0 ∧ requireSize w size body = .failure .rangeError) ∨
    (1 ≤ effectiveSize w size ∧ effectiveSize w size ≤ w ∧ requireSize w size body = body (effectiveSize w size)) := by
  unfold requireSize
  by_cases h : effectiveSize w size ≤ w
  · by_cases h' : 1 ≤ effectiveSize w size
    · simp [h, h']
    · simp only [h, h', decide_true, decide_false, require_true, require_false]
      exact .inr (.inl ⟨by omega, trivial⟩)
  · simp [h]; omega

theorem effectiveSize_of_legal {w n : Nat} {size : Option Nat} (h : LegalSize w size n) : effectiveSize w size = n := by
  obtain ⟨rfl | ⟨rfl, rfl⟩, -⟩ := h <;> rfl

theorem requireSize_of_legal {w n : Nat} {size : Option Nat} (h : LegalSize w size n) (body : Nat → Response) :
    requireSize w size body = body n := by
  have := effectiveSize_of_legal h
  obtain ⟨-, h1, h2⟩ := h
  simp [requireSize, this, h1, h2]

/-- A unary sized operation of a legal size goes on with the low field (R152). -/
theorem sizedUnary_of_legal {a : Value} {n : Nat} {size : Option Nat} (h : LegalSize a.w size n)
    (body : (n : Nat) → BitVec n → Response) : sizedUnary a size body = body n (low a n) :=
  requireSize_of_legal h _

/-- A binary sized operation of equal widths and a legal size goes on with the low fields (R152). -/
theorem sizedBinary_of_legal {a b : Value} {n : Nat} {size : Option Nat} (hw : a.w = b.w) (h : LegalSize a.w size n)
    (body : (n : Nat) → BitVec n → BitVec n → Response) : sizedBinary a b size body = body n (low a n) (low b n) := by
  simp only [sizedBinary, hw, decide_true, require_true]
  exact requireSize_of_legal (hw ▸ h) _

/-- What a binary sized operation can do, in the order of 60_exceptions.md R252. -/
theorem sizedBinary_cases (a b : Value) (size : Option Nat) (body : (n : Nat) → BitVec n → BitVec n → Response) :
    (a.w ≠ b.w ∧ sizedBinary a b size body = .failure .widthMismatchError) ∨
    (a.w = b.w ∧ a.w < effectiveSize a.w size ∧ sizedBinary a b size body = .failure .widthMismatchError) ∨
    (a.w = b.w ∧ effectiveSize a.w size = 0 ∧ sizedBinary a b size body = .failure .rangeError) ∨
    (a.w = b.w ∧ 1 ≤ effectiveSize a.w size ∧ effectiveSize a.w size ≤ a.w ∧
      sizedBinary a b size body =
        body (effectiveSize a.w size) (low a (effectiveSize a.w size)) (low b (effectiveSize a.w size))) := by
  unfold sizedBinary
  by_cases h : a.w = b.w
  · have := requireSize_cases a.w size fun n => body n (low a n) (low b n)
    simp only [h, decide_true, require_true, true_and, not_true_eq_false, false_and, false_or, ne_eq] at this ⊢
    exact this
  · simp [h]

theorem requireDivisor_of_ne {n : Nat} {divisor : BitVec n} (h : unsigned divisor ≠ 0) (rest : Response) :
    requireDivisor divisor rest = rest := by
  have : (unsigned divisor != 0) = true := by simpa using h
  simp [requireDivisor, this]

theorem requireDivisor_of_eq {n : Nat} {divisor : BitVec n} (h : unsigned divisor = 0) (rest : Response) :
    requireDivisor divisor rest = .failure .divisionByZeroError := by
  simp [requireDivisor, h]

/-- Everything answering a request can do. -/
theorem answer_cases (st : State) (ops : List Value) (asked : List Nat) (r : Response) :
    (ops.all Value.wf = false ∧ answer st ops asked r = .refused .illFormedOperand) ∨
    (ops.all Value.wf = true ∧ (ops.all (fun v => st.config.fits v.w) && asked.all st.config.fits) = false ∧
      answer st ops asked r = .refused .aboveWmax) ∨
    (ops.all Value.wf = true ∧ ops.all (fun v => st.config.fits v.w) = true ∧ asked.all st.config.fits = true ∧
      answer st ops asked r = .next (respond st r)) := by
  unfold answer
  cases h : ops.all Value.wf
  · simp
  · cases h' : (ops.all (fun v => st.config.fits v.w) && asked.all st.config.fits)
    · simp
    · simp only [Bool.and_eq_true] at h'
      simp [h'.1, h'.2]

/-- If answering gives a next state, that state is the old one with the response. -/
theorem answer_eq_next {st t : State} {ops : List Value} {asked : List Nat} {r : Response}
    (h : answer st ops asked r = .next t) : t = respond st r := by
  rcases answer_cases st ops asked r with ⟨-, e⟩ | ⟨-, -, e⟩ | ⟨-, -, -, e⟩ <;> rw [e] at h
  · cases h
  · cases h
  · exact (Host.Outcome.next.inj h).symm

/-- A well-formed request is answered. -/
theorem answer_of_wf {st : State} {ops : List Value} {asked : List Nat} (r : Response)
    (h : (ops.all Value.wf && ops.all (fun v => st.config.fits v.w) && asked.all st.config.fits) = true) :
    answer st ops asked r = .next (respond st r) := by
  simp only [Bool.and_eq_true] at h
  obtain ⟨⟨h1, h2⟩, h3⟩ := h
  simp only [answer, h1, h2, h3, Bool.and_self, if_true]

end Sys2Proof.Machine
end

