-- ==== Sys2Proof/Laws/Exec.lean ====
section
/-! SUPPORT. Everything `exec` and `step` can do, said once: every operation answers, with a response that depends on its
operands and the instance's parameters only, or refuses. -/

namespace Sys2Proof.Machine

/-- Every operation answers its own operands with one response, whatever the rest of the state. -/
theorem exec_eq_answer (i : Instr) :
    ∃ r : Config → Response, ∀ st, exec i st = answer st i.operands i.askedWidths (r st.config) := by
  cases i
  case fromInteger k n =>
    exact ⟨fun c => require (1 ≤ n) .rangeError <|
      require (decide (-2 ^ (n - 1) ≤ k ∧ k ≤ fromIntegerHigh c.band n)) .rangeError <| .ok (.value ⟨n, bv n k⟩),
      fun _ => rfl⟩
  all_goals exact ⟨fun _ => _, fun _ => rfl⟩

/-- If an operation gives a next state, only the response has changed. -/
theorem exec_eq_next {i : Instr} {st t : State} (h : exec i st = .next t) : ∃ r, t = respond st r := by
  obtain ⟨r, hr⟩ := exec_eq_answer i
  rw [hr] at h
  exact ⟨_, answer_eq_next h⟩

/-- A well-formed request is answered with the response of its operation. -/
theorem exec_of_wf {i : Instr} {st : State} {r : Response} (h : i.wf st.config = true)
    (hr : exec i st = answer st i.operands i.askedWidths r) : exec i st = .next (respond st r) := by
  rw [hr]
  exact answer_of_wf r h

/-- The response of a next state is not shared by two responses. -/
theorem next_respond_inj {st : State} {r r' : Response}
    (h : (Host.Outcome.next (respond st r) : Host.Outcome State Fault Refusal) = .next (respond st r')) : r = r' := by
  have := congrArg State.response (Host.Outcome.next.inj h)
  simpa using this

end Sys2Proof.Machine
end

