-- ==== Sys2Proof/Laws/Forms.lean ====
section
/-! SUPPORT. The common form of the sized operations (42_arithmetic.md R152, R153), said once, so that a statement over
all of them does not unfold each meaning. -/

namespace Sys2Proof.Machine

/-- Every sized operation of two values validates, selects the low fields and goes on. -/
theorem exec_binary_form {mk : Value → Value → Option Nat → Instr} (h : mk ∈ binaryValueOps ++ relationalOps) :
    ∃ body : Value → (n : Nat) → BitVec n → BitVec n → Response,
      ∀ a b size st, exec (mk a b size) st = answer st [a, b] [] (sizedBinary a b size (body a)) := by
  simp only [binaryValueOps, relationalOps, List.cons_append, List.nil_append, List.mem_cons, List.not_mem_nil,
    or_false] at h
  rcases h with rfl | rfl | rfl | rfl | rfl | rfl | rfl | rfl | rfl | rfl | rfl | rfl | rfl | rfl | rfl | rfl | rfl |
    rfl | rfl | rfl <;> exact ⟨_, fun _ _ _ _ => rfl⟩

/-- Their well-formedness is that of their two operands. -/
theorem binary_wf {mk : Value → Value → Option Nat → Instr} (h : mk ∈ binaryValueOps ++ relationalOps) (c : Config)
    (a b : Value) (size : Option Nat) :
    (mk a b size).wf c = ([a, b].all Value.wf && [a, b].all (fun v => c.fits v.w) && ([] : List Nat).all c.fits) := by
  simp only [binaryValueOps, relationalOps, List.cons_append, List.nil_append, List.mem_cons, List.not_mem_nil,
    or_false] at h
  rcases h with rfl | rfl | rfl | rfl | rfl | rfl | rfl | rfl | rfl | rfl | rfl | rfl | rfl | rfl | rfl | rfl | rfl |
    rfl | rfl | rfl <;> rfl

/-- A comparison looks at the low fields only: nothing of the left operand passes through (45_relational.md R200). -/
theorem exec_relational_form {mk : Value → Value → Option Nat → Instr} (h : mk ∈ relationalOps) :
    ∃ test : (n : Nat) → BitVec n → BitVec n → Bool,
      ∀ a b size st, exec (mk a b size) st = answer st [a, b] [] (sizedBinary a b size fun n A B =>
        returnBool (test n A B)) := by
  simp only [relationalOps, List.mem_cons, List.not_mem_nil, or_false] at h
  rcases h with rfl | rfl | rfl | rfl | rfl | rfl | rfl | rfl | rfl | rfl
  · exact ⟨fun _ A B => sameBits A B, fun _ _ _ _ => rfl⟩
  · exact ⟨fun _ A B => !sameBits A B, fun _ _ _ _ => rfl⟩
  · exact ⟨fun _ A B => unsignedLess A B, fun _ _ _ _ => rfl⟩
  · exact ⟨fun _ A B => unsignedLessEq A B, fun _ _ _ _ => rfl⟩
  · exact ⟨fun _ A B => unsignedLess B A, fun _ _ _ _ => rfl⟩
  · exact ⟨fun _ A B => unsignedLessEq B A, fun _ _ _ _ => rfl⟩
  · exact ⟨fun _ A B => signedLess A B, fun _ _ _ _ => rfl⟩
  · exact ⟨fun _ A B => signedLessEq A B, fun _ _ _ _ => rfl⟩
  · exact ⟨fun _ A B => signedLess B A, fun _ _ _ _ => rfl⟩
  · exact ⟨fun _ A B => signedLessEq B A, fun _ _ _ _ => rfl⟩

/-- Every sized operation of one value that returns a value splices a function of its low field. -/
theorem exec_unary_form {mk : Value → Option Nat → Instr} (h : mk ∈ unarySizedOps) :
    ∃ body : (n : Nat) → BitVec n → BitVec n,
      ∀ a size st, exec (mk a size) st = answer st [a] [] (sizedUnary a size fun n A => returnSpliced a (body n A)) := by
  simp only [unarySizedOps, List.mem_cons, List.not_mem_nil, or_false] at h
  rcases h with rfl | rfl | rfl | rfl
  · exact ⟨fun _ A => ~~~A, fun _ _ _ => rfl⟩
  · exact ⟨fun _ A => shiftedLeft A, fun _ _ _ => rfl⟩
  · exact ⟨fun _ A => shiftedRight A, fun _ _ _ => rfl⟩
  · exact ⟨fun _ A => shiftedRightSigned A, fun _ _ _ => rfl⟩

/-- Their well-formedness is that of their one operand. -/
theorem unary_wf {mk : Value → Option Nat → Instr} (h : mk ∈ unarySizedOps) (c : Config) (a : Value)
    (size : Option Nat) :
    (mk a size).wf c = ([a].all Value.wf && [a].all (fun v => c.fits v.w) && ([] : List Nat).all c.fits) := by
  simp only [unarySizedOps, List.mem_cons, List.not_mem_nil, or_false] at h
  rcases h with rfl | rfl | rfl | rfl <;> rfl

/-- A well-formed binary request of equal widths and a legal size is answered with its body on the low fields. -/
theorem exec_binary_of_legal {i : Instr} {st : State} {a b : Value} {size : Option Nat} {n : Nat}
    {body : (n : Nat) → BitVec n → BitVec n → Response}
    (e : exec i st = answer st [a, b] [] (sizedBinary a b size body))
    (h : ([a, b].all Value.wf && [a, b].all (fun v => st.config.fits v.w) && ([] : List Nat).all st.config.fits) = true)
    (hw : a.w = b.w) (hs : LegalSize a.w size n) : exec i st = .next (respond st (body n (low a n) (low b n))) := by
  rw [e, sizedBinary_of_legal hw hs]
  exact answer_of_wf _ h

/-- A well-formed unary request of a legal size is answered with its body on the low field. -/
theorem exec_unary_of_legal {i : Instr} {st : State} {a : Value} {size : Option Nat} {n : Nat}
    {body : (n : Nat) → BitVec n → Response} (e : exec i st = answer st [a] [] (sizedUnary a size body))
    (h : a.wf = true) (h' : st.config.fits a.w = true) (hs : LegalSize a.w size n) :
    exec i st = .next (respond st (body n (low a n))) := by
  rw [e, sizedUnary_of_legal hs]
  exact answer_of_wf _ (by simp [h, h'])

end Sys2Proof.Machine
end

