-- ==== Sys2Proof/Laws/PerInstr.lean ====
section
/-! SUPPORT. The per-instruction family: each instruction is encoded under the op code of its own row (30_encoding.md R66),
and is decoded back from it. -/

namespace Sys2Proof.Laws.EncodesUnderItsRow

/-- The `op` field of the encoded instruction is the code of its row, and selects that row alone (R65, R66). -/
def Statement (i : Instr) : Prop := (encode i).op = i.op.code ∧ Op.ofCode (encode i).op = some i.op

theorem zero (n : Nat) : Statement (.zero n) := ⟨rfl, rfl⟩
theorem fromInteger (k : Int) (n : Nat) : Statement (.fromInteger k n) := ⟨rfl, rfl⟩
theorem fromBits (seq : List Bool) (n : Nat) : Statement (.fromBits seq n) := ⟨rfl, rfl⟩
theorem width (a : Value) : Statement (.width a) := ⟨rfl, rfl⟩
theorem bit (a : Value) (k : Int) : Statement (.bit a k) := ⟨rfl, rfl⟩
theorem asUnsigned (a : Value) : Statement (.asUnsigned a) := ⟨rfl, rfl⟩
theorem asSigned (a : Value) : Statement (.asSigned a) := ⟨rfl, rfl⟩
theorem asHex (a : Value) : Statement (.asHex a) := ⟨rfl, rfl⟩
theorem asBinaryText (a : Value) : Statement (.asBinaryText a) := ⟨rfl, rfl⟩
theorem copy (a : Value) : Statement (.copy a) := ⟨rfl, rfl⟩
theorem spliceLow (a b : Value) : Statement (.spliceLow a b) := ⟨rfl, rfl⟩
theorem valueEq (a b : Value) : Statement (.valueEq a b) := ⟨rfl, rfl⟩
theorem valueLt (a b : Value) : Statement (.valueLt a b) := ⟨rfl, rfl⟩
theorem zeroExtend (a : Value) (n : Nat) : Statement (.zeroExtend a n) := ⟨rfl, rfl⟩
theorem signExtend (a : Value) (n : Nat) : Statement (.signExtend a n) := ⟨rfl, rfl⟩
theorem truncate (a : Value) (n : Nat) : Statement (.truncate a n) := ⟨rfl, rfl⟩
theorem add (a b : Value) (size : Option Nat) : Statement (.add a b size) := ⟨rfl, rfl⟩
theorem sub (a b : Value) (size : Option Nat) : Statement (.sub a b size) := ⟨rfl, rfl⟩
theorem mul (a b : Value) (size : Option Nat) : Statement (.mul a b size) := ⟨rfl, rfl⟩
theorem udiv (a b : Value) (size : Option Nat) : Statement (.udiv a b size) := ⟨rfl, rfl⟩
theorem urem (a b : Value) (size : Option Nat) : Statement (.urem a b size) := ⟨rfl, rfl⟩
theorem sdiv (a b : Value) (size : Option Nat) : Statement (.sdiv a b size) := ⟨rfl, rfl⟩
theorem srem (a b : Value) (size : Option Nat) : Statement (.srem a b size) := ⟨rfl, rfl⟩
theorem bitAnd (a b : Value) (size : Option Nat) : Statement (.bitAnd a b size) := ⟨rfl, rfl⟩
theorem bitOr (a b : Value) (size : Option Nat) : Statement (.bitOr a b size) := ⟨rfl, rfl⟩
theorem bitXor (a b : Value) (size : Option Nat) : Statement (.bitXor a b size) := ⟨rfl, rfl⟩
theorem bitNot (a : Value) (size : Option Nat) : Statement (.bitNot a size) := ⟨rfl, rfl⟩
theorem shiftLeft (a : Value) (size : Option Nat) : Statement (.shiftLeft a size) := ⟨rfl, rfl⟩
theorem logicalShiftRight (a : Value) (size : Option Nat) : Statement (.logicalShiftRight a size) := ⟨rfl, rfl⟩
theorem arithmeticShiftRight (a : Value) (size : Option Nat) : Statement (.arithmeticShiftRight a size) := ⟨rfl, rfl⟩
theorem eq (a b : Value) (size : Option Nat) : Statement (.eq a b size) := ⟨rfl, rfl⟩
theorem neq (a b : Value) (size : Option Nat) : Statement (.neq a b size) := ⟨rfl, rfl⟩
theorem ult (a b : Value) (size : Option Nat) : Statement (.ult a b size) := ⟨rfl, rfl⟩
theorem ule (a b : Value) (size : Option Nat) : Statement (.ule a b size) := ⟨rfl, rfl⟩
theorem ugt (a b : Value) (size : Option Nat) : Statement (.ugt a b size) := ⟨rfl, rfl⟩
theorem uge (a b : Value) (size : Option Nat) : Statement (.uge a b size) := ⟨rfl, rfl⟩
theorem slt (a b : Value) (size : Option Nat) : Statement (.slt a b size) := ⟨rfl, rfl⟩
theorem sle (a b : Value) (size : Option Nat) : Statement (.sle a b size) := ⟨rfl, rfl⟩
theorem sgt (a b : Value) (size : Option Nat) : Statement (.sgt a b size) := ⟨rfl, rfl⟩
theorem sge (a b : Value) (size : Option Nat) : Statement (.sge a b size) := ⟨rfl, rfl⟩

end Sys2Proof.Laws.EncodesUnderItsRow
end

