-- ==== Sys2Proof/Machine/TextForm.lean ====
section
/-! DEFINITION. The text form of a request (30_encoding.md R73): the source's call syntax, one request, the value operands
first; integers in decimal, values `0b...` with the most significant bit first (00_scope.md section 5.1). No operation
reads it; where R73 shows spacing by example only, the model follows the examples (log entry 15). -/

namespace Sys2Proof.Machine

/-- The mnemonic of an operation, the source's name (R66, R73). -/
def opMnemonic : Op → String
  | .zero => "zero"
  | .fromInteger => "from_integer"
  | .fromBits => "from_bits"
  | .width => "width"
  | .bit => "bit"
  | .asUnsigned => "as_unsigned"
  | .asSigned => "as_signed"
  | .asHex => "as_hex"
  | .asBinaryText => "as_binary_text"
  | .copy => "copy"
  | .spliceLow => "splice_low"
  | .valueEq => "value_eq"
  | .valueLt => "value_lt"
  | .zeroExtend => "zero_extend"
  | .signExtend => "sign_extend"
  | .truncate => "truncate"
  | .add => "add"
  | .sub => "sub"
  | .mul => "mul"
  | .udiv => "udiv"
  | .urem => "urem"
  | .sdiv => "sdiv"
  | .srem => "srem"
  | .bitAnd => "bit_and"
  | .bitOr => "bit_or"
  | .bitXor => "bit_xor"
  | .bitNot => "bit_not"
  | .shiftLeft => "shift_left"
  | .logicalShiftRight => "logical_shift_right"
  | .arithmeticShiftRight => "arithmetic_shift_right"
  | .eq => "eq"
  | .neq => "neq"
  | .ult => "ult"
  | .ule => "ule"
  | .ugt => "ugt"
  | .uge => "uge"
  | .slt => "slt"
  | .sle => "sle"
  | .sgt => "sgt"
  | .sge => "sge"

/-- A natural number in decimal. -/
def natText (n : Nat) : Text := Nat.toDigits 10 n

/-- An integer in decimal, a minus sign before a negative one. -/
def intText (k : Int) : Text := if k < 0 then '-' :: natText k.natAbs else natText k.natAbs

/-- A bit as R73 writes an element of a sequence. -/
def bitText (b : Bool) : Text := if b then ['1'] else ['0']

/-- Items with `, ` between them, as the examples of R73 have it. -/
def commaText : List Text → Text
  | [] => []
  | [x] => x
  | x :: y :: rest => x ++ [',', ' '] ++ commaText (y :: rest)

/-- A bit sequence in brackets, element 0 first. -/
def seqText (bits : List Bool) : Text := ['['] ++ commaText (bits.map bitText) ++ [']']

/-- A value `0b...`: as many digits as its width, the most significant first (00_scope.md section 5.1). -/
def valueText (v : Value) : Text :=
  ['0', 'b'] ++ (List.range v.w).reverse.flatMap fun i => bitText (v.b.getLsbD i)

/-- The optional operand: `size=s` when it is given, nothing when it is omitted. -/
def sizeText : Option Nat → List Text
  | none => []
  | some n => [['s', 'i', 'z', 'e', '='] ++ natText n]

/-- The operand texts of a request, in the order of R73. -/
def operandTexts : Instr → List Text
  | .zero n => [natText n]
  | .fromInteger k n => [intText k, natText n]
  | .fromBits seq n => [seqText seq, natText n]
  | .width a => [valueText a]
  | .bit a k => [valueText a, intText k]
  | .asUnsigned a => [valueText a]
  | .asSigned a => [valueText a]
  | .asHex a => [valueText a]
  | .asBinaryText a => [valueText a]
  | .copy a => [valueText a]
  | .spliceLow a b => [valueText a, valueText b]
  | .valueEq a b => [valueText a, valueText b]
  | .valueLt a b => [valueText a, valueText b]
  | .zeroExtend a n => [valueText a, natText n]
  | .signExtend a n => [valueText a, natText n]
  | .truncate a n => [valueText a, natText n]
  | .add a b size => (valueText a :: valueText b :: sizeText size)
  | .sub a b size => (valueText a :: valueText b :: sizeText size)
  | .mul a b size => (valueText a :: valueText b :: sizeText size)
  | .udiv a b size => (valueText a :: valueText b :: sizeText size)
  | .urem a b size => (valueText a :: valueText b :: sizeText size)
  | .sdiv a b size => (valueText a :: valueText b :: sizeText size)
  | .srem a b size => (valueText a :: valueText b :: sizeText size)
  | .bitAnd a b size => (valueText a :: valueText b :: sizeText size)
  | .bitOr a b size => (valueText a :: valueText b :: sizeText size)
  | .bitXor a b size => (valueText a :: valueText b :: sizeText size)
  | .bitNot a size => (valueText a :: sizeText size)
  | .shiftLeft a size => (valueText a :: sizeText size)
  | .logicalShiftRight a size => (valueText a :: sizeText size)
  | .arithmeticShiftRight a size => (valueText a :: sizeText size)
  | .eq a b size => (valueText a :: valueText b :: sizeText size)
  | .neq a b size => (valueText a :: valueText b :: sizeText size)
  | .ult a b size => (valueText a :: valueText b :: sizeText size)
  | .ule a b size => (valueText a :: valueText b :: sizeText size)
  | .ugt a b size => (valueText a :: valueText b :: sizeText size)
  | .uge a b size => (valueText a :: valueText b :: sizeText size)
  | .slt a b size => (valueText a :: valueText b :: sizeText size)
  | .sle a b size => (valueText a :: valueText b :: sizeText size)
  | .sgt a b size => (valueText a :: valueText b :: sizeText size)
  | .sge a b size => (valueText a :: valueText b :: sizeText size)

/-- The text form of a request, R73: `name(operands)`. -/
def textForm (i : Instr) : Text :=
  (opMnemonic i.op).toList ++ ['('] ++ commaText (operandTexts i) ++ [')']

end Sys2Proof.Machine
end

