-- ==== Sys2Proof/Tests/Slice0.lean ====
section
/-! SUPPORT. Tests. Expected results are taken from the spec: the words from the encodings of 30_encoding.md R66, the
responses from 95_test_vectors.md and the examples of the rules. After them, a witness for every statement that has
hypotheses: a state and operands that meet all of them. -/

namespace Sys2Proof.Machine.Tests

/-- The response to an operation in the state after reset. -/
def ask (i : Instr) : Option Response := responseOf (exec i State.reset)

/-- The state after reset with the FROM_INT_UNSIGNED_BAND parameter at its other setting. -/
def rejecting : State := { State.reset with config := { Config.standard with band := .reject } }

/-- An instance that carries widths up to 8. -/
def narrow : State := { State.reset with config := { Config.standard with wmax := some 8 } }

/-- The state after reset with one request presented. -/
def presenting (r : Request) : State := { State.reset with pending := [r] }

/-- 95_test_vectors.md section 2.12: `add(0b0111, 0b0011, size=4)` as its fields, the fields it does not read set to
something. -/
def addRequest : Request :=
  { op := 0x30#8, a := ⟨4, 0b0111#4⟩, b := ⟨4, 0b0011#4⟩, szEn := true, size := 4, n := 99, k := -5, seq := [true] }

/-- An unassigned code, 0x37. -/
def unassignedRequest : Request := { addRequest with op := 0x37#8 }

/-- `udiv(0b1010, 0b0000)` of section 2.12. -/
def divideByZeroRequest : Request := { Request.blank 0x33#8 with a := ⟨4, 0b1010#4⟩, b := ⟨4, 0b0000#4⟩ }

/-! ## Well-formedness: an ill-formed term for each check -/

theorem test_wf_refuses_width_zero_operand :
    (Instr.add ⟨0, 0#0⟩ ⟨4, 0#4⟩ none).wf Config.standard = false ∧
      exec (.add ⟨0, 0#0⟩ ⟨4, 0#4⟩ none) .reset = .refused .illFormedOperand := ⟨by decide, rfl⟩
theorem test_wf_refuses_width_zero_right_operand :
    (Instr.valueEq ⟨4, 0#4⟩ ⟨0, 0#0⟩).wf Config.standard = false ∧
      exec (.valueEq ⟨4, 0#4⟩ ⟨0, 0#0⟩) .reset = .refused .illFormedOperand := ⟨by decide, rfl⟩
theorem test_wf_refuses_operand_above_wmax :
    (Instr.copy ⟨9, 0#9⟩).wf narrow.config = false ∧ exec (.copy ⟨9, 0#9⟩) narrow = .refused .aboveWmax :=
  ⟨by decide, rfl⟩
theorem test_wf_refuses_asked_width_above_wmax :
    (Instr.zero 9).wf narrow.config = false ∧ exec (.zero 9) narrow = .refused .aboveWmax ∧
      exec (.signExtend ⟨4, 0#4⟩ 9) narrow = .refused .aboveWmax := ⟨by decide, rfl, rfl⟩
theorem test_wf_admits_truncate_above_wmax :
    (Instr.truncate ⟨4, 0#4⟩ 9).wf narrow.config = true ∧
      responseOf (exec (.truncate ⟨4, 0#4⟩ 9) narrow) = some (.failure .directionError) := by decide

/-! ## Decoding: the words of R66 -/

theorem test_decode_zero : decodeTableWord 8 0b00000000 = some (.zero 0) := by decide
theorem test_decode_from_integer : decodeTableWord 8 0b00000001 = some (.fromInteger 0 0) := by decide
theorem test_decode_from_bits : decodeTableWord 8 0b00000010 = some (.fromBits [] 0) := by decide
theorem test_decode_width : decodeTableWord 8 0b00010000 = some (.width ⟨1, 0#1⟩) := by decide
theorem test_decode_bit : decodeTableWord 8 0b00010001 = some (.bit ⟨1, 0#1⟩ 0) := by decide
theorem test_decode_as_unsigned : decodeTableWord 8 0b00010010 = some (.asUnsigned ⟨1, 0#1⟩) := by decide
theorem test_decode_as_signed : decodeTableWord 8 0b00010011 = some (.asSigned ⟨1, 0#1⟩) := by decide
theorem test_decode_as_hex : decodeTableWord 8 0b00010100 = some (.asHex ⟨1, 0#1⟩) := by decide
theorem test_decode_as_binary_text : decodeTableWord 8 0b00010101 = some (.asBinaryText ⟨1, 0#1⟩) := by decide
theorem test_decode_copy : decodeTableWord 8 0b00010110 = some (.copy ⟨1, 0#1⟩) := by decide
theorem test_decode_splice_low : decodeTableWord 8 0b00010111 = some (.spliceLow ⟨1, 0#1⟩ ⟨1, 0#1⟩) := by decide
theorem test_decode_value_eq : decodeTableWord 8 0b00011000 = some (.valueEq ⟨1, 0#1⟩ ⟨1, 0#1⟩) := by decide
theorem test_decode_value_lt : decodeTableWord 8 0b00011001 = some (.valueLt ⟨1, 0#1⟩ ⟨1, 0#1⟩) := by decide
theorem test_decode_zero_extend : decodeTableWord 8 0b00100000 = some (.zeroExtend ⟨1, 0#1⟩ 0) := by decide
theorem test_decode_sign_extend : decodeTableWord 8 0b00100001 = some (.signExtend ⟨1, 0#1⟩ 0) := by decide
theorem test_decode_truncate : decodeTableWord 8 0b00100010 = some (.truncate ⟨1, 0#1⟩ 0) := by decide
theorem test_decode_add : decodeTableWord 8 0b00110000 = some (.add ⟨1, 0#1⟩ ⟨1, 0#1⟩ none) := by decide
theorem test_decode_sub : decodeTableWord 8 0b00110001 = some (.sub ⟨1, 0#1⟩ ⟨1, 0#1⟩ none) := by decide
theorem test_decode_mul : decodeTableWord 8 0b00110010 = some (.mul ⟨1, 0#1⟩ ⟨1, 0#1⟩ none) := by decide
theorem test_decode_udiv : decodeTableWord 8 0b00110011 = some (.udiv ⟨1, 0#1⟩ ⟨1, 0#1⟩ none) := by decide
theorem test_decode_urem : decodeTableWord 8 0b00110100 = some (.urem ⟨1, 0#1⟩ ⟨1, 0#1⟩ none) := by decide
theorem test_decode_sdiv : decodeTableWord 8 0b00110101 = some (.sdiv ⟨1, 0#1⟩ ⟨1, 0#1⟩ none) := by decide
theorem test_decode_srem : decodeTableWord 8 0b00110110 = some (.srem ⟨1, 0#1⟩ ⟨1, 0#1⟩ none) := by decide
theorem test_decode_bit_and : decodeTableWord 8 0b01000000 = some (.bitAnd ⟨1, 0#1⟩ ⟨1, 0#1⟩ none) := by decide
theorem test_decode_bit_or : decodeTableWord 8 0b01000001 = some (.bitOr ⟨1, 0#1⟩ ⟨1, 0#1⟩ none) := by decide
theorem test_decode_bit_xor : decodeTableWord 8 0b01000010 = some (.bitXor ⟨1, 0#1⟩ ⟨1, 0#1⟩ none) := by decide
theorem test_decode_bit_not : decodeTableWord 8 0b01000011 = some (.bitNot ⟨1, 0#1⟩ none) := by decide
theorem test_decode_shift_left : decodeTableWord 8 0b01010000 = some (.shiftLeft ⟨1, 0#1⟩ none) := by decide
theorem test_decode_logical_shift_right : decodeTableWord 8 0b01010001 = some (.logicalShiftRight ⟨1, 0#1⟩ none) := by decide
theorem test_decode_arithmetic_shift_right : decodeTableWord 8 0b01010010 = some (.arithmeticShiftRight ⟨1, 0#1⟩ none) := by decide
theorem test_decode_eq : decodeTableWord 8 0b01100000 = some (.eq ⟨1, 0#1⟩ ⟨1, 0#1⟩ none) := by decide
theorem test_decode_neq : decodeTableWord 8 0b01100001 = some (.neq ⟨1, 0#1⟩ ⟨1, 0#1⟩ none) := by decide
theorem test_decode_ult : decodeTableWord 8 0b01100010 = some (.ult ⟨1, 0#1⟩ ⟨1, 0#1⟩ none) := by decide
theorem test_decode_ule : decodeTableWord 8 0b01100011 = some (.ule ⟨1, 0#1⟩ ⟨1, 0#1⟩ none) := by decide
theorem test_decode_ugt : decodeTableWord 8 0b01100100 = some (.ugt ⟨1, 0#1⟩ ⟨1, 0#1⟩ none) := by decide
theorem test_decode_uge : decodeTableWord 8 0b01100101 = some (.uge ⟨1, 0#1⟩ ⟨1, 0#1⟩ none) := by decide
theorem test_decode_slt : decodeTableWord 8 0b01100110 = some (.slt ⟨1, 0#1⟩ ⟨1, 0#1⟩ none) := by decide
theorem test_decode_sle : decodeTableWord 8 0b01100111 = some (.sle ⟨1, 0#1⟩ ⟨1, 0#1⟩ none) := by decide
theorem test_decode_sgt : decodeTableWord 8 0b01101000 = some (.sgt ⟨1, 0#1⟩ ⟨1, 0#1⟩ none) := by decide
theorem test_decode_sge : decodeTableWord 8 0b01101001 = some (.sge ⟨1, 0#1⟩ ⟨1, 0#1⟩ none) := by decide

theorem test_decode_refuses_first_unassigned : decodeTableWord 8 0b00000011 = none := by decide
theorem test_decode_refuses_unassigned_family : decodeTableWord 8 0b01110000 = none := by decide
theorem test_decode_refuses_above_field : decodeTableWord 16 0b100000000 = none := by decide
theorem test_decode_full_request :
    decode addRequest = .ok (.add ⟨4, 0b0111#4⟩ ⟨4, 0b0011#4⟩ (some 4)) := rfl
theorem test_decode_size_not_read :
    decode { addRequest with szEn := false } = .ok (.add ⟨4, 0b0111#4⟩ ⟨4, 0b0011#4⟩ none) := rfl
theorem test_unassigned_ranges_follow_the_table :
    (List.range 256).all (fun c => unassignedCode c == (Op.ofCode (BitVec.ofNat 8 c)).isNone) = true := by decide +kernel

/-! ## Steps -/

theorem test_step_answers_full_request :
    responseOf (step (presenting addRequest)) = some (.ok (.value ⟨4, 0b1010#4⟩)) := by decide
theorem test_step_answers_unassigned_code :
    responseOf (step (presenting unassignedRequest)) = some (.failure .illegalOp) := by decide
theorem test_step_from_reset_refuses : step State.reset = .refused .noRequest := rfl
theorem test_step_runs_table_word :
    responseOf (step (State.reset.withFetchWord 8 0b01000011)) = some (.ok (.value ⟨1, 0b1#1⟩)) := by decide
theorem test_response_fields_of_failure :
    errField (.failure .divisionByZeroError) = 4#3 ∧ yField (.failure .divisionByZeroError) = none := by decide

/-! ## The operations -/

theorem test_zero_runs : ask (.zero 4) = some (.ok (.value ⟨4, 0b0000#4⟩)) := by decide
theorem test_zero_fails : ask (.zero 0) = some (.failure .rangeError) := by decide
theorem test_from_integer_runs : ask (.fromInteger (-6) 4) = some (.ok (.value ⟨4, 0b1010#4⟩)) := by decide
theorem test_from_bits_runs :
    ask (.fromBits [false, true, false, true] 4) = some (.ok (.value ⟨4, 0b1010#4⟩)) := by decide
theorem test_from_bits_fails :
    ask (.fromBits [false, true, false, true, true] 4) = some (.failure .rangeError) := by decide
theorem test_width_runs : ask (.width ⟨4, 0b1010#4⟩) = some (.ok (.nat 4)) := by decide
theorem test_bit_runs : ask (.bit ⟨4, 0b1010#4⟩ 3) = some (.ok (.bool true)) := by decide
theorem test_bit_fails : ask (.bit ⟨4, 0b1010#4⟩ (-1)) = some (.failure .indexError) := by decide
theorem test_as_unsigned_runs : ask (.asUnsigned ⟨8, 0b11111010#8⟩) = some (.ok (.nat 250)) := by decide
theorem test_as_signed_runs : ask (.asSigned ⟨4, 0b1010#4⟩) = some (.ok (.int (-6))) := by decide
theorem test_as_signed_runs_again : ask (.asSigned ⟨8, 0b10000000#8⟩) = some (.ok (.int (-128))) := by decide
theorem test_as_binary_text_runs :
    ask (.asBinaryText ⟨8, 0b00101101#8⟩) = some (.ok (.text ['1', '0', Config.binDelim, '1', '1', '0', '1'])) := rfl
theorem test_as_binary_text_runs_again : ask (.asBinaryText ⟨4, 0b0000#4⟩) = some (.ok (.text ['0'])) := by decide
theorem test_copy_runs : ask (.copy ⟨4, 0b1010#4⟩) = some (.ok (.value ⟨4, 0b1010#4⟩)) := by decide
theorem test_splice_low_runs :
    ask (.spliceLow ⟨8, 0b10100101#8⟩ ⟨4, 0b0011#4⟩) = some (.ok (.value ⟨8, 0b10100011#8⟩)) := by decide
theorem test_splice_low_fails :
    ask (.spliceLow ⟨4, 0b0011#4⟩ ⟨8, 0b10100101#8⟩) = some (.failure .widthMismatchError) := by decide
theorem test_value_eq_runs : ask (.valueEq ⟨4, 0b1010#4⟩ ⟨4, 0b1010#4⟩) = some (.ok (.bool true)) := by decide
theorem test_value_eq_runs_again :
    ask (.valueEq ⟨4, 0b0010#4⟩ ⟨8, 0b00000010#8⟩) = some (.ok (.bool false)) := by decide
theorem test_value_lt_runs : ask (.valueLt ⟨4, 0b0111#4⟩ ⟨4, 0b1000#4⟩) = some (.ok (.bool true)) := by decide
theorem test_value_lt_fails :
    ask (.valueLt ⟨4, 0b0111#4⟩ ⟨5, 0b01000#5⟩) = some (.failure .widthMismatchError) := by decide
theorem test_zero_extend_runs : ask (.zeroExtend ⟨4, 0b1010#4⟩ 8) = some (.ok (.value ⟨8, 0b00001010#8⟩)) := by decide
theorem test_zero_extend_fails : ask (.zeroExtend ⟨4, 0b1010#4⟩ 4) = some (.failure .directionError) := by decide
theorem test_sign_extend_runs : ask (.signExtend ⟨4, 0b1010#4⟩ 8) = some (.ok (.value ⟨8, 0b11111010#8⟩)) := by decide
theorem test_sign_extend_fails : ask (.signExtend ⟨4, 0b1010#4⟩ 2) = some (.failure .directionError) := by decide
theorem test_truncate_runs : ask (.truncate ⟨8, 0b11111010#8⟩ 4) = some (.ok (.value ⟨4, 0b1010#4⟩)) := by decide
theorem test_truncate_fails : ask (.truncate ⟨4, 0b1010#4⟩ 0) = some (.failure .rangeError) := by decide
theorem test_add_sized :
    ask (.add ⟨8, 0b10100111#8⟩ ⟨8, 0b01011001#8⟩ (some 4)) = some (.ok (.value ⟨8, 0b10100000#8⟩)) := by decide
theorem test_add_fails :
    ask (.add ⟨4, 0b1010#4⟩ ⟨5, 0b01010#5⟩ (some 9)) = some (.failure .widthMismatchError) := by decide
theorem test_sub_runs : ask (.sub ⟨4, 0b0011#4⟩ ⟨4, 0b0111#4⟩ none) = some (.ok (.value ⟨4, 0b1100#4⟩)) := by decide
theorem test_sub_sized :
    ask (.sub ⟨8, 0b10100111#8⟩ ⟨8, 0b01011001#8⟩ (some 4)) = some (.ok (.value ⟨8, 0b10101110#8⟩)) := by decide
theorem test_mul_runs : ask (.mul ⟨4, 0b1010#4⟩ ⟨4, 0b0011#4⟩ none) = some (.ok (.value ⟨4, 0b1110#4⟩)) := by decide
theorem test_mul_sized :
    ask (.mul ⟨8, 0b10100111#8⟩ ⟨8, 0b01011001#8⟩ (some 4)) = some (.ok (.value ⟨8, 0b10101111#8⟩)) := by decide
theorem test_udiv_sized :
    ask (.udiv ⟨8, 0b10100111#8⟩ ⟨8, 0b11110001#8⟩ (some 4)) = some (.ok (.value ⟨8, 0b10100111#8⟩)) := by decide
theorem test_udiv_fails :
    ask (.udiv ⟨8, 0b10100111#8⟩ ⟨8, 0b00010000#8⟩ (some 4)) = some (.failure .divisionByZeroError) := by decide
theorem test_urem_runs : ask (.urem ⟨4, 0b1011#4⟩ ⟨4, 0b0111#4⟩ none) = some (.ok (.value ⟨4, 0b0100#4⟩)) := by decide
theorem test_urem_fails :
    ask (.urem ⟨4, 0b1010#4⟩ ⟨4, 0b0000#4⟩ none) = some (.failure .divisionByZeroError) := by decide
theorem test_sdiv_runs : ask (.sdiv ⟨4, 0b1001#4⟩ ⟨4, 0b0010#4⟩ none) = some (.ok (.value ⟨4, 0b1101#4⟩)) := by decide
theorem test_sdiv_sized :
    ask (.sdiv ⟨8, 0b00001000#8⟩ ⟨8, 0b00001111#8⟩ (some 4)) = some (.ok (.value ⟨8, 0b00001000#8⟩)) := by decide
theorem test_srem_runs : ask (.srem ⟨4, 0b1001#4⟩ ⟨4, 0b0010#4⟩ none) = some (.ok (.value ⟨4, 0b1111#4⟩)) := by decide
theorem test_srem_runs_again :
    ask (.srem ⟨4, 0b0111#4⟩ ⟨4, 0b1110#4⟩ none) = some (.ok (.value ⟨4, 0b0001#4⟩)) := by decide
theorem test_bit_and_sized :
    ask (.bitAnd ⟨8, 0b11111100#8⟩ ⟨8, 0b00001010#8⟩ (some 4)) = some (.ok (.value ⟨8, 0b11111000#8⟩)) := by decide
theorem test_bit_and_fails :
    ask (.bitAnd ⟨4, 0b1100#4⟩ ⟨5, 0b01010#5⟩ none) = some (.failure .widthMismatchError) := by decide
theorem test_bit_or_sized :
    ask (.bitOr ⟨8, 0b00001100#8⟩ ⟨8, 0b11111010#8⟩ (some 4)) = some (.ok (.value ⟨8, 0b00001110#8⟩)) := by decide
theorem test_bit_xor_sized :
    ask (.bitXor ⟨8, 0b10101100#8⟩ ⟨8, 0b01011010#8⟩ (some 4)) = some (.ok (.value ⟨8, 0b10100110#8⟩)) := by decide
theorem test_bit_not_sized :
    ask (.bitNot ⟨8, 0b10101010#8⟩ (some 4)) = some (.ok (.value ⟨8, 0b10100101#8⟩)) := by decide
theorem test_bit_not_fails : ask (.bitNot ⟨4, 0b1010#4⟩ (some 5)) = some (.failure .widthMismatchError) := by decide
theorem test_shift_left_sized :
    ask (.shiftLeft ⟨8, 0b00001111#8⟩ (some 4)) = some (.ok (.value ⟨8, 0b00001110#8⟩)) := by decide
theorem test_shift_left_fails : ask (.shiftLeft ⟨4, 0b1010#4⟩ (some 0)) = some (.failure .rangeError) := by decide
theorem test_logical_shift_right_sized :
    ask (.logicalShiftRight ⟨8, 0b11111000#8⟩ (some 4)) = some (.ok (.value ⟨8, 0b11110100#8⟩)) := by decide
theorem test_logical_shift_right_runs :
    ask (.logicalShiftRight ⟨4, 0b1001#4⟩ none) = some (.ok (.value ⟨4, 0b0100#4⟩)) := by decide
theorem test_arithmetic_shift_right_sized :
    ask (.arithmeticShiftRight ⟨8, 0b00001000#8⟩ (some 4)) = some (.ok (.value ⟨8, 0b00001100#8⟩)) := by decide
theorem test_arithmetic_shift_right_runs :
    ask (.arithmeticShiftRight ⟨4, 0b0110#4⟩ none) = some (.ok (.value ⟨4, 0b0011#4⟩)) := by decide
theorem test_eq_sized : ask (.eq ⟨8, 0b10101010#8⟩ ⟨8, 0b01011010#8⟩ (some 4)) = some (.ok (.bool true)) := by decide
theorem test_eq_fails : ask (.eq ⟨4, 0b1010#4⟩ ⟨5, 0b01010#5⟩ none) = some (.failure .widthMismatchError) := by decide
theorem test_neq_runs : ask (.neq ⟨4, 0b1010#4⟩ ⟨4, 0b1011#4⟩ none) = some (.ok (.bool true)) := by decide
theorem test_ult_sized : ask (.ult ⟨8, 0b11110001#8⟩ ⟨8, 0b00000010#8⟩ (some 4)) = some (.ok (.bool true)) := by decide
theorem test_ult_fails : ask (.ult ⟨4, 0b1010#4⟩ ⟨4, 0b0011#4⟩ (some 0)) = some (.failure .rangeError) := by decide
theorem test_ule_runs : ask (.ule ⟨4, 0b1010#4⟩ ⟨4, 0b1010#4⟩ none) = some (.ok (.bool true)) := by decide
theorem test_ule_runs_again : ask (.ule ⟨4, 0b1010#4⟩ ⟨4, 0b0011#4⟩ none) = some (.ok (.bool false)) := by decide
theorem test_ugt_runs : ask (.ugt ⟨4, 0b1010#4⟩ ⟨4, 0b0011#4⟩ none) = some (.ok (.bool true)) := by decide
theorem test_uge_runs : ask (.uge ⟨4, 0b0011#4⟩ ⟨4, 0b1010#4⟩ none) = some (.ok (.bool false)) := by decide
theorem test_uge_runs_again : ask (.uge ⟨4, 0b1010#4⟩ ⟨4, 0b1010#4⟩ none) = some (.ok (.bool true)) := by decide
theorem test_slt_sized : ask (.slt ⟨8, 0b00001000#8⟩ ⟨8, 0b00000111#8⟩ (some 4)) = some (.ok (.bool true)) := by decide
theorem test_slt_runs : ask (.slt ⟨4, 0b0011#4⟩ ⟨4, 0b1010#4⟩ none) = some (.ok (.bool false)) := by decide
theorem test_sle_runs : ask (.sle ⟨4, 0b1010#4⟩ ⟨4, 0b1010#4⟩ none) = some (.ok (.bool true)) := by decide
theorem test_sle_runs_again : ask (.sle ⟨4, 0b0011#4⟩ ⟨4, 0b1010#4⟩ none) = some (.ok (.bool false)) := by decide
theorem test_sgt_runs : ask (.sgt ⟨4, 0b0011#4⟩ ⟨4, 0b1010#4⟩ none) = some (.ok (.bool true)) := by decide
theorem test_sgt_runs_again : ask (.sgt ⟨4, 0b1000#4⟩ ⟨4, 0b0111#4⟩ none) = some (.ok (.bool false)) := by decide
theorem test_sge_runs : ask (.sge ⟨4, 0b0111#4⟩ ⟨4, 0b1000#4⟩ none) = some (.ok (.bool true)) := by decide
theorem test_sge_runs_again : ask (.sge ⟨4, 0b1010#4⟩ ⟨4, 0b0011#4⟩ none) = some (.ok (.bool false)) := by decide
theorem test_as_hex_runs : ask (.asHex ⟨4, 0b1010#4⟩) = some (.ok (.text (Config.hexFormat 4 0b1010#4))) := rfl
theorem test_from_integer_band_rejected :
    responseOf (exec (.fromInteger 8 4) rejecting) = some (.failure .rangeError) := by decide

/-! ## Sequences and text -/

/-- Lines 1 and 5 of program P1 of 95_test_vectors.md, and then a line that fails and one that is not issued. -/
def shortProgram : List Line :=
  [{ Line.blank ['x'] 0x01#8 with k := .lit (-6), n := .lit 4 },
   { Line.blank ['y'] 0x21#8 with a := .name ['x'], n := .lit 8 },
   { Line.blank ['z'] 0x21#8 with a := .name ['y'], n := .lit 8 },
   { Line.blank ['w'] 0x16#8 with a := .name ['z'] }]

theorem test_sequence_binds_names : runSequence Config.standard (shortProgram.take 2) [] =
    .next [(['y'], .value ⟨8, 0b11111010#8⟩), (['x'], .value ⟨4, 0b1010#4⟩)] := rfl
theorem test_sequence_ends_at_first_failure :
    runSequence Config.standard shortProgram [] = .fault (.failure .directionError) := rfl
theorem test_sequence_refuses_unbound_name :
    runSequence Config.standard (shortProgram.drop 3) [] = .refused .unresolvedName := rfl
theorem test_text_form_of_sized_request :
    textForm (.add ⟨4, 0b0111#4⟩ ⟨4, 0b0011#4⟩ (some 4)) = "add(0b0111, 0b0011, size=4)".toList := by decide +kernel
theorem test_text_form_of_integer_and_sequence :
    textForm (.fromInteger (-6) 4) = "from_integer(-6, 4)".toList ∧
      textForm (.fromBits [false, true] 4) = "from_bits([0, 1], 4)".toList := by decide +kernel

/-! ## Witnesses -/

theorem witness_OpCodeAloneSelectsOneOperation :
    Op.code .add = Op.code .add ∧ addRequest.op = (Request.blank 0x30#8).op ∧
      decode addRequest = .ok (.add ⟨4, 0b0111#4⟩ ⟨4, 0b0011#4⟩ (some 4)) := ⟨rfl, rfl, rfl⟩
theorem witness_UnassignedCodesAnswerIllegalOp :
    (presenting unassignedRequest).pending = unassignedRequest :: [] ∧
      unassignedCode unassignedRequest.op.toNat = true := by decide
theorem witness_IllegalOpExactlyForUnassignedCodes :
    (presenting unassignedRequest).pending = unassignedRequest :: [] ∧
      (presenting addRequest).pending = addRequest :: [] := by decide
theorem witness_FamilyNibbleGivesTheFamily :
    7 ≤ (opFamilyNibble 0x70#8).toNat ∧ Op.add ∈ ([.add, .sub, .mul, .udiv, .urem, .sdiv, .srem] : List Op) := by decide
theorem witness_StepRunsTheDecodedRequest :
    ((presenting addRequest).pending = addRequest :: [] ∧
      decode addRequest = .ok (.add ⟨4, 0b0111#4⟩ ⟨4, 0b0011#4⟩ (some 4))) ∧
    decodeTableWord 8 0x16 = some (.copy ⟨1, 0#1⟩) := ⟨⟨rfl, rfl⟩, rfl⟩
theorem witness_ResetPresentsNoRequest : State.reset.pending = [] := rfl
theorem witness_RequestsAnsweredExactlyWhenWellFormed :
    (Instr.copy ⟨8, 5#8⟩).wf narrow.config = true ∧ (Instr.copy ⟨0, 0#0⟩).operands.all Value.wf = false ∧
      ((Instr.copy ⟨9, 5#9⟩).operands.all Value.wf = true ∧ (Instr.copy ⟨9, 5#9⟩).wf narrow.config = false) := by decide
theorem addRequest_carries_add : addRequest.carries (.add ⟨4, 0b0111#4⟩ ⟨4, 0b0011#4⟩ (some 4)) := by
  refine ⟨rfl, fun f hf => ?_⟩
  simp only [Instr.op, Op.format, Format.fields, List.mem_cons, List.not_mem_nil, or_false] at hf
  rcases hf with rfl | rfl | rfl | rfl
  · rfl
  · rfl
  · rfl
  · exact fun _ => rfl
theorem other_request_carries_add :
    ({ addRequest with n := 0, seq := [] } : Request).carries (.add ⟨4, 0b0111#4⟩ ⟨4, 0b0011#4⟩ (some 4)) := by
  refine ⟨rfl, fun f hf => ?_⟩
  simp only [Instr.op, Op.format, Format.fields, List.mem_cons, List.not_mem_nil, or_false] at hf
  rcases hf with rfl | rfl | rfl | rfl
  · rfl
  · rfl
  · rfl
  · exact fun _ => rfl
theorem witness_ResponseDependsOnTheRequestAlone :
    (presenting addRequest).config = (presenting { addRequest with n := 0, seq := [] }).config ∧
      (presenting addRequest).pending = addRequest :: [] ∧
      (presenting { addRequest with n := 0, seq := [] }).pending = { addRequest with n := 0, seq := [] } :: [] ∧
      addRequest.carries (.add ⟨4, 0b0111#4⟩ ⟨4, 0b0011#4⟩ (some 4)) ∧
      ({ addRequest with n := 0, seq := [] } : Request).carries (.add ⟨4, 0b0111#4⟩ ⟨4, 0b0011#4⟩ (some 4)) :=
  ⟨rfl, rfl, rfl, addRequest_carries_add, other_request_carries_add⟩
theorem witness_StepAnswersOneRequestAndChangesNothingElse :
    step (presenting addRequest) = .next (succeed State.reset (.value ⟨4, 0b1010#4⟩)) := rfl
theorem witness_RunGivesEachRequestItsOwnResponse :
    (∀ r ∈ [addRequest, divideByZeroRequest], (responseOf (step (presented Config.standard r))).isSome) ∧
      [addRequest, divideByZeroRequest].Perm [divideByZeroRequest, addRequest] := ⟨by decide, List.Perm.swap _ _ _⟩
theorem witness_EveryStepKeepsResultsWellFormed :
    (presenting addRequest).responseWf = true ∧
      step (presenting addRequest) = .next (succeed State.reset (.value ⟨4, 0b1010#4⟩)) := ⟨rfl, rfl⟩
theorem witness_ResultHasTheKindOfTheTable :
    exec (.asSigned ⟨4, 0b1010#4⟩) State.reset = .next (succeed State.reset (.int (-6))) := rfl
theorem witness_ErrCodesAndResponseFields :
    errField (.ok (.nat 4)) = 0#3 ∧ errField (.failure .indexError) ≠ 0#3 := by decide
theorem witness_SequenceEndsAtItsFirstFailure :
    (runSequence Config.standard (shortProgram.take 2) [] =
      .next [(['y'], .value ⟨8, 0b11111010#8⟩), (['x'], .value ⟨4, 0b1010#4⟩)] ∧
     issueLine Config.standard [(['y'], .value ⟨8, 0b11111010#8⟩), (['x'], .value ⟨4, 0b1010#4⟩)]
      { Line.blank ['z'] 0x21#8 with a := .name ['y'], n := .lit 8 } = .fault (.failure .directionError)) ∧
    (runSequence Config.standard (shortProgram.take 1) [] = .next [(['x'], .value ⟨4, 0b1010#4⟩)] ∧
     issueLine Config.standard [(['x'], .value ⟨4, 0b1010#4⟩)]
      { Line.blank ['y'] 0x21#8 with a := .name ['x'], n := .lit 8 } =
        .next [(['y'], .value ⟨8, 0b11111010#8⟩), (['x'], .value ⟨4, 0b1010#4⟩)]) := ⟨⟨rfl, rfl⟩, rfl, rfl⟩
theorem witness_LineBindsTheResultOfItsRequest :
    (({ Line.blank ['c'] 0x30#8 with a := .name ['x'], b := .name ['y'] } : Line).resolve
        [(['x'], .value ⟨4, 0b0111#4⟩), (['y'], .value ⟨4, 0b0011#4⟩)] =
        some (encode (.add ⟨4, 0b0111#4⟩ ⟨4, 0b0011#4⟩ none)) ∧
      responseOf (step (presented Config.standard (encode (.add ⟨4, 0b0111#4⟩ ⟨4, 0b0011#4⟩ none)))) =
        some (.ok (.value ⟨4, 0b1010#4⟩))) ∧
    (({ Line.blank ['c'] 0x33#8 with a := .lit ⟨4, 0b1010#4⟩, b := .lit ⟨4, 0#4⟩ } : Line).resolve [] =
        some divideByZeroRequest ∧
      responseOf (step (presented Config.standard divideByZeroRequest)) = some (.failure .divisionByZeroError)) ∧
    (lookupName [(['x'], .value ⟨4, 0b0111#4⟩), (['y'], .value ⟨4, 0b0011#4⟩)] ['x'] = some (.value ⟨4, 0b0111#4⟩) ∧
      lookupName [(['x'], .value ⟨4, 0b0111#4⟩), (['y'], .value ⟨4, 0b0011#4⟩)] ['y'] = some (.value ⟨4, 0b0011#4⟩)) := by
  decide
theorem witness_ZeroGivesTheZeroValue :
    (narrow.config.fits 8 = true ∧ 1 ≤ 8) ∧ narrow.config.fits 1 = true ∧ narrow.config.fits 0 = true := by decide
theorem witness_FromIntegerEncodesItsRange :
    State.reset.config.fits 0 = true ∧
    ((-2 ^ (4 - 1) : Int) ≤ -8 ∧ (-8 : Int) < 2 ^ (4 - 1)) ∧
    ((-2 ^ (4 - 1) : Int) ≤ 15 ∧ State.reset.config.band = .accept ∧ (15 : Int) < 2 ^ 4) ∧
    (-9 : Int) < -2 ^ (4 - 1) ∧ (2 : Int) ^ 4 ≤ 16 ∧ (rejecting.config.band = .reject ∧ (2 : Int) ^ (4 - 1) ≤ 8) := by decide
theorem witness_FromBitsPlacesTheSequenceAtTheLowEnd :
    State.reset.config.fits 4 = true ∧ (1 ≤ 4 ∧ [true, false, true, true].length ≤ 4) ∧
      ((0 = 0 ∨ 0 < ([] : List Bool).length) ∧ 4 < [true, true, true, true, true].length) := by decide
theorem witness_ConstructionRoundTrip :
    (1 ≤ 4 ∧ State.reset.config.fits 4 = true) ∧ ((-2 ^ (4 - 1) : Int) ≤ -8 ∧ (-8 : Int) < 2 ^ (4 - 1)) ∧
      ((2 : Int) ^ (4 - 1) ≤ 15 ∧ (15 : Int) < 2 ^ 4 ∧ State.reset.config.band = .accept) := by decide
theorem witness_ConversionsInvertConstructors :
    (Value.wf ⟨4, 0b0111#4⟩ = true ∧ State.reset.config.fits 4 = true ∧
      Value.bitAt ⟨4, 0b0111#4⟩ (4 - 1) = false) ∧
    (Value.wf ⟨4, 0b1010#4⟩ = true ∧ rejecting.config.fits 4 = true ∧
      Value.bitAt ⟨4, 0b1010#4⟩ (4 - 1) = true ∧ rejecting.config.band = .reject) := by decide
theorem witness_WidthCopyAndHexTextAnswer :
    Value.wf ⟨8, 5#8⟩ = true ∧ narrow.config.fits (⟨8, 5#8⟩ : Value).w = true := by decide
theorem witness_BitReadsOnlyInsideTheValue :
    Value.wf ⟨4, 0b1010#4⟩ = true ∧ State.reset.config.fits 4 = true ∧ 3 < (⟨4, 0b1010#4⟩ : Value).w ∧
      (-1 : Int) < 0 ∧ ((⟨4, 0b1010#4⟩ : Value).w : Int) ≤ 4 := by decide
theorem witness_ReadingsAreWeightedSums :
    Value.wf ⟨1, 1#1⟩ = true ∧ State.reset.config.fits 1 = true := by decide
theorem witness_BinaryTextGroupsDigitsInFours :
    (Value.wf ⟨4, 0#4⟩ = true ∧ State.reset.config.fits 4 = true ∧ ∀ i, (⟨4, 0#4⟩ : Value).bitAt i = false) ∧
    (Value.wf ⟨8, 0b00010000#8⟩ = true ∧ State.reset.config.fits 8 = true ∧
      (⟨8, 0b00010000#8⟩ : Value).bitAt 4 = true ∧ ∀ i, 4 < i → (⟨8, 0b00010000#8⟩ : Value).bitAt i = false) := by
  refine ⟨⟨rfl, rfl, fun i => by simp [Value.bitAt]⟩, rfl, rfl, rfl, fun i hi => ?_⟩
  by_cases h : i < 8
  · interval_cases i <;> rfl
  · exact Value.bitAt_of_ge _ (by simpa using h)
theorem witness_SpliceLowReplacesTheLowBits :
    ((Instr.spliceLow ⟨4, 5#4⟩ ⟨4, 3#4⟩).wf State.reset.config = true ∧ (4 ≤ 4)) ∧
      ((Instr.spliceLow ⟨4, 5#4⟩ ⟨5, 3#5⟩).wf State.reset.config = true ∧ 4 < 5) := by decide
theorem witness_ValueComparisons :
    ((Instr.valueEq ⟨4, 5#4⟩ ⟨4, 6#4⟩).wf State.reset.config = true ∧
      (⟨4, 5#4⟩ : Value).w = (⟨4, 6#4⟩ : Value).w) ∧
    ((Instr.valueEq ⟨4, 5#4⟩ ⟨5, 5#5⟩).wf State.reset.config = true ∧
      (⟨4, 5#4⟩ : Value).w ≠ (⟨5, 5#5⟩ : Value).w) := by decide
theorem witness_ExtensionsWidenStrictly :
    ((Instr.zeroExtend ⟨4, 0b1010#4⟩ 5).wf State.reset.config = true ∧ (⟨4, 0b1010#4⟩ : Value).w < 5) ∧
    ((Instr.zeroExtend ⟨4, 0b1010#4⟩ 4).wf State.reset.config = true ∧ 4 ≤ (⟨4, 0b1010#4⟩ : Value).w) := by decide
theorem witness_TruncateKeepsTheLowBits :
    (Value.wf ⟨4, 0b1010#4⟩ = true ∧ State.reset.config.fits 4 = true) ∧ (1 ≤ 3 ∧ 3 < (⟨4, 0b1010#4⟩ : Value).w) ∧
      (⟨4, 0b1010#4⟩ : Value).w ≤ 4 ∧ (0 : Nat) = 0 := by decide
theorem witness_ExtensionRoundTrip :
    (Instr.signExtend ⟨4, 0b1010#4⟩ 5).wf State.reset.config = true ∧ (⟨4, 0b1010#4⟩ : Value).w < 5 := by decide
theorem witness_WidthChangesCompose :
    (Value.wf ⟨3, 0b101#3⟩ = true ∧ narrow.config.fits 3 = true) ∧ (3 < 4 ∧ 4 < 8 ∧ narrow.config.fits 8 = true) ∧
      (1 ≤ 1 ∧ 1 < 2 ∧ 2 < 3) := by decide
theorem witness_SizedOperationsValidateInOrder :
    (Instr.udiv ∈ binaryValueOps ++ relationalOps ∧
      (Instr.udiv ⟨4, 0b1010#4⟩ ⟨5, 0#5⟩ (some 0)).wf State.reset.config = true ∧ 4 ≠ 5) ∧
    ((Instr.udiv ⟨4, 0b1010#4⟩ ⟨4, 0#4⟩ (some 5)).wf State.reset.config = true ∧ 4 < 5) ∧
    (Instr.udiv ⟨4, 0b1010#4⟩ ⟨4, 0#4⟩ (some 0)).wf State.reset.config = true ∧
    (Instr.bitNot ∈ unarySizedOps ∧ (Instr.bitNot ⟨4, 0b1010#4⟩ (some 5)).wf State.reset.config = true ∧
      (Instr.bitNot ⟨4, 0b1010#4⟩ (some 0)).wf State.reset.config = true) := by
  refine ⟨⟨?_, by decide, by decide⟩, by decide, by decide, ?_, by decide, by decide⟩
  · simp [binaryValueOps]
  · simp [unarySizedOps]
theorem legalSize_given : LegalSize 8 (some 4) 4 := ⟨.inl rfl, by decide, by decide⟩
theorem legalSize_one : LegalSize 8 (some 1) 1 := ⟨.inl rfl, by decide, by decide⟩
theorem legalSize_omitted : LegalSize 8 none 8 := ⟨.inr ⟨rfl, rfl⟩, by decide, by decide⟩
theorem witness_SizedResultsKeepTheHighBits :
    (Instr.add ∈ binaryValueOps ∧ LegalSize 8 (some 4) 4 ∧
      exec (.add ⟨8, 0b10100111#8⟩ ⟨8, 0b01011001#8⟩ (some 4)) State.reset =
        .next (succeed State.reset (.value ⟨8, 0b10100000#8⟩))) ∧
    (Instr.bitNot ∈ unarySizedOps ∧ LegalSize 8 (some 4) 4 ∧
      exec (.bitNot ⟨8, 0b10101010#8⟩ (some 4)) State.reset =
        .next (succeed State.reset (.value ⟨8, 0b10100101#8⟩))) := by
  refine ⟨⟨?_, legalSize_given, rfl⟩, ?_, legalSize_given, rfl⟩
  · simp [binaryValueOps]
  · simp [unarySizedOps]
theorem witness_HighBitsOfTheRightOperandAreIgnored :
    Instr.udiv ∈ binaryValueOps ++ relationalOps ∧ Instr.ult ∈ relationalOps ∧ LegalSize 8 (some 4) 4 ∧
      ∀ i, i < 4 → (⟨8, 0b11110001#8⟩ : Value).bitAt i = (⟨8, 0b00000001#8⟩ : Value).bitAt i := by
  refine ⟨by simp [binaryValueOps], by simp [relationalOps], legalSize_given, fun i hi => ?_⟩
  interval_cases i <;> rfl
theorem witness_SizedOperationIsSpliceOfTheTruncatedOne :
    Instr.sdiv ∈ binaryValueOps ++ relationalOps ∧ Instr.shiftLeft ∈ unarySizedOps ∧
      ((Instr.add ⟨8, 0b10100111#8⟩ ⟨8, 0b01011001#8⟩ none).wf State.reset.config = true ∧ 1 ≤ 7 ∧ 7 < 8) := by
  exact ⟨by simp [binaryValueOps], by simp [unarySizedOps], by decide⟩
/-- For AddSubMulWrapAtTheSize and AddSubMulAgreeWithSignedReadings. -/
theorem witness_AddSubMul :
    (Instr.add ⟨8, 0b10100111#8⟩ ⟨8, 0b01011001#8⟩ (some 4)).wf State.reset.config = true ∧
      (⟨8, 0b10100111#8⟩ : Value).w = (⟨8, 0b01011001#8⟩ : Value).w ∧ LegalSize 8 (some 4) 4 :=
  ⟨by decide, by decide, legalSize_given⟩
theorem witness_UnsignedDivision :
    (Instr.udiv ⟨8, 0b10100111#8⟩ ⟨8, 0b11110001#8⟩ (some 4)).wf State.reset.config = true ∧
      LegalSize 8 (some 4) 4 ∧ (⟨8, 0b11110001#8⟩ : Value).lowUnsigned 4 ≠ 0 := ⟨by decide, legalSize_given, by decide⟩
theorem witness_SignedDivisionRoundsTowardZero :
    (Instr.sdiv ⟨8, 0b11111001#8⟩ ⟨8, 0b00000010#8⟩ none).wf State.reset.config = true ∧
      LegalSize 8 none 8 ∧ (⟨8, 0b00000010#8⟩ : Value).lowUnsigned 8 ≠ 0 := ⟨by decide, legalSize_omitted, by decide⟩
theorem witness_SignedOverflowWraps :
    (exec (.sdiv ⟨8, 0b00001000#8⟩ ⟨8, 0b00001111#8⟩ (some 4)) State.reset =
        .next (succeed State.reset (.value ⟨8, 0b00001000#8⟩)) ∧ LegalSize 8 (some 4) 4 ∧
      (⟨8, 0b00001111#8⟩ : Value).lowUnsigned 4 ≠ 0 ∧ (⟨8, 0b00001000#8⟩ : Value).lowSigned 4 = -2 ^ (4 - 1) ∧
      (⟨8, 0b00001111#8⟩ : Value).lowSigned 4 = -1) ∧
    (exec (.sdiv ⟨8, 0b00001000#8⟩ ⟨8, 0b00001111#8⟩ none) State.reset =
        .next (succeed State.reset (.value ⟨8, 0#8⟩)) ∧ LegalSize 8 none 8 ∧
      (⟨8, 0b00001111#8⟩ : Value).lowUnsigned 8 ≠ 0 ∧ (⟨8, 0b00001000#8⟩ : Value).lowSigned 8 ≠ -2 ^ (8 - 1)) :=
  ⟨⟨rfl, legalSize_given, by decide, by decide, by decide⟩, rfl, legalSize_omitted, by decide, by decide⟩
/-- For DivisionByZeroExactly, IndexErrorExactly, DirectionErrorExactly, RangeErrorExactly and
WidthMismatchErrorExactly, whose one hypothesis is the well-formedness of the request. -/
theorem witness_FailureCausesExactly :
    (Instr.udiv ⟨8, 0b10100111#8⟩ ⟨8, 0b00010000#8⟩ (some 4)).wf State.reset.config = true ∧
      (Instr.bit ⟨4, 0b1010#4⟩ (-1)).wf State.reset.config = true ∧
      (Instr.truncate ⟨4, 0b1010#4⟩ 4).wf State.reset.config = true ∧
      (Instr.fromInteger 16 4).wf State.reset.config = true := by decide
theorem witness_SameValueAsBothOperands :
    (Value.wf ⟨8, 0b10100000#8⟩ = true ∧ State.reset.config.fits 8 = true) ∧ LegalSize 8 (some 4) 4 ∧
      (⟨8, 0b10100000#8⟩ : Value).lowUnsigned 4 = 0 ∧ (LegalSize 8 (some 1) 1 ∧
      (⟨8, 0b00000001#8⟩ : Value).lowUnsigned 1 ≠ 0) :=
  ⟨by decide, legalSize_given, by decide, legalSize_one, by decide⟩
theorem witness_BitwiseOperationsBitByBit :
    (Instr.bitAnd ⟨8, 0b11111100#8⟩ ⟨8, 0b00001010#8⟩ (some 4)).wf State.reset.config = true ∧ LegalSize 8 (some 4) 4 ∧
      (⟨8, 0b11111100#8⟩ : Value).w = (⟨8, 0b00001010#8⟩ : Value).w := ⟨by decide, legalSize_given, by decide⟩
/-- For ShiftsMoveOnePosition and ShiftsDoubleAndHalve. -/
theorem witness_Shifts :
    Value.wf ⟨8, 0b00001111#8⟩ = true ∧ State.reset.config.fits 8 = true ∧ LegalSize 8 (some 4) 4 ∧
      LegalSize 8 (some 1) 1 := ⟨by decide, by decide, legalSize_given, legalSize_one⟩
/-- Two shifts of a field of two bits. -/
def shiftedValues (first second third : BitVec 4) (j : Nat) : Value :=
  ⟨4, if j = 0 then first else if j = 1 then second else third⟩
theorem witness_RepeatedShiftsEmptyTheField :
    LegalSize 4 (some 2) 2 ∧
    (∀ j, j < 2 → exec (.shiftLeft (shiftedValues 0b1111#4 0b1110#4 0b1100#4 j) (some 2)) State.reset =
      .next (succeed State.reset (.value (shiftedValues 0b1111#4 0b1110#4 0b1100#4 (j + 1))))) ∧
    (∀ j, j < 2 → exec (.logicalShiftRight (shiftedValues 0b1111#4 0b1101#4 0b1100#4 j) (some 2)) State.reset =
      .next (succeed State.reset (.value (shiftedValues 0b1111#4 0b1101#4 0b1100#4 (j + 1))))) ∧
    ∀ j, j < 1 → exec (.arithmeticShiftRight (shiftedValues 0b1110#4 0b1111#4 0b1111#4 j) (some 2)) State.reset =
      .next (succeed State.reset (.value (shiftedValues 0b1110#4 0b1111#4 0b1111#4 (j + 1)))) := by
  refine ⟨⟨.inl rfl, by decide, by decide⟩, fun j hj => ?_, fun j hj => ?_, fun j hj => ?_⟩ <;>
    interval_cases j <;> rfl
/-- For EqualityOfTheLowFields, UnsignedComparisons and SignedComparisons. -/
theorem witness_Comparisons :
    (Instr.eq ⟨8, 0b11110001#8⟩ ⟨8, 0b00000010#8⟩ (some 4)).wf State.reset.config = true ∧
      (Instr.ult ⟨8, 0b11110001#8⟩ ⟨8, 0b00000010#8⟩ (some 4)).wf State.reset.config = true ∧
      (Instr.slt ⟨8, 0b11110001#8⟩ ⟨8, 0b00000010#8⟩ (some 4)).wf State.reset.config = true ∧
      LegalSize 8 (some 4) 4 := ⟨by decide, by decide, by decide, legalSize_given⟩
theorem witness_ComparisonsFormATotalOrder :
    ((Instr.eq ⟨8, 7#8⟩ ⟨8, 7#8⟩ none).wf State.reset.config = true ∧ LegalSize 8 none 8) ∧
      (Instr.eq ⟨8, 7#8⟩ ⟨9, 7#9⟩ none).wf State.reset.config = true ∧ 8 ≠ 9 :=
  ⟨⟨by decide, legalSize_omitted⟩, by decide, by decide⟩
theorem witness_ValueLevelAndSizedComparisonsAgree :
    (Instr.eq ⟨4, 7#4⟩ ⟨4, 7#4⟩ none).wf State.reset.config = true ∧
      (Instr.eq ⟨4, 7#4⟩ ⟨5, 7#5⟩ none).wf State.reset.config = true ∧ 4 ≠ 5 ∧ Instr.sge ∈ relationalOps := by
  exact ⟨by decide, by decide, by decide, by simp [relationalOps]⟩
/-- For SignExtensionInvariance and ZeroExtensionInvariance. -/
theorem witness_ExtensionInvariance :
    (Instr.add ⟨4, 0b1001#4⟩ ⟨4, 0b0010#4⟩ none).wf State.reset.config = true ∧
      (⟨4, 0b1001#4⟩ : Value).w = (⟨4, 0b0010#4⟩ : Value).w ∧ (⟨4, 0b1001#4⟩ : Value).w < 5 ∧
      State.reset.config.fits 5 = true := by decide

end Sys2Proof.Machine.Tests
end

section
/-! PROOFS. The statements of 00_scope.md. -/

namespace Sys2Proof

/-- WMAX is a bound: a width below one that fits also fits (00_scope.md R7). -/
theorem Config.fits_of_le {c : Config} {m n : Nat} (h : c.fits m = true) (hle : n ≤ m) : c.fits n = true := by
  obtain ⟨wmax, band⟩ := c
  cases wmax with
  | none => rfl
  | some bound =>
    simp only [Config.fits, decide_eq_true_eq] at h ⊢
    omega

/-- The signed and the unsigned reading of a low field differ by 0 or by 2^n (R12). -/
theorem Value.lowSigned_modEq (v : Value) (n : Nat) : v.lowSigned n ≡ v.lowUnsigned n [ZMOD 2 ^ n] := by
  unfold Value.lowSigned
  split
  · exact Int.sub_modulus_modEq_iff.mpr rfl
  · rfl

/-- The weighted sum of the low `n` bits of a number is its residue modulo 2^n. -/
theorem sum_testBit_weights (x n : Nat) :
    ((List.range n).map fun i => if x.testBit i then 2 ^ i else 0).sum = x % 2 ^ n := by
  induction n with
  | zero => simp [Nat.mod_one]
  | succ n ih =>
    rw [List.range_succ, List.map_append, List.sum_append, ih, Nat.mod_pow_succ, ← Nat.toNat_testBit]
    cases h : x.testBit n <;> simp [h]

/-- The unsigned reading of a value is the weighted sum of its bits (40_value.md R106). -/
theorem Value.toNat_eq_sum_weights (v : Value) :
    v.b.toNat = ((List.range v.w).map fun i => if v.bitAt i then 2 ^ i else 0).sum :=
  (Nat.mod_eq_of_lt v.b.isLt).symm.trans (sum_testBit_weights _ _).symm

end Sys2Proof

namespace Sys2Proof.Machine

/-! ### What a step can do -/

/-- With nothing presented a step is refused. -/
theorem step_of_pending_nil {st : State} (h : st.pending = []) : step st = .refused .noRequest := by
  simp only [step, h]

/-- A step that gives a next state took the oldest request: its op code is unassigned and it is answered with IllegalOp,
or it decodes and its operation gives that state. -/
theorem step_eq_next {st t : State} (h : step st = .next t) :
    ∃ r rest, st.pending = r :: rest ∧
      ((∃ e, decode r = .error e ∧ t = raise { st with pending := rest } .illegalOp) ∨
        ∃ i, decode r = .ok i ∧ exec i { st with pending := rest } = .next t) := by
  cases hp : st.pending with
  | nil => simp [step_of_pending_nil hp] at h
  | cons r rest =>
    simp only [step, hp] at h
    refine ⟨r, rest, rfl, ?_⟩
    cases hd : decode r with
    | error e =>
      simp only [hd, Host.Outcome.next.injEq] at h
      exact .inl ⟨e, rfl, h.symm⟩
    | ok i =>
      simp only [hd] at h
      exact .inr ⟨i, rfl, h⟩

/-! ### Well-formed responses -/

/-- A response that shows no value, or a value of the spec within WMAX (10_state.md R21, 00_scope.md R7). -/
def Response.wf (c : Config) : Response → Bool
  | .ok r => Result.wf c r
  | .failure _ => true

/-- The invariant of the state a response leaves is a property of the response. -/
theorem respond_responseWf (st : State) (r : Response) : (respond st r).responseWf = Response.wf st.config r := by
  cases r <;> rfl

theorem value_wf {c : Config} {n : Nat} (hn : 1 ≤ n) (hf : c.fits n = true) (x : BitVec n) :
    Result.wf c (.value ⟨n, x⟩) = true := by
  simp [Result.wf, Value.wf, hn, hf]

/-- A splice has the width of the operand it is spliced into (R153). -/
theorem returnSpliced_wf {c : Config} {a : Value} (ha : Result.wf c (.value a) = true) {n : Nat} (r : BitVec n) :
    Response.wf c (returnSpliced a r) = true := ha

theorem returnBool_wf (c : Config) (e : Bool) : Response.wf c (returnBool e) = true := rfl

/-- A rule behind a precondition is well formed when the rest of it is, under that precondition. -/
theorem require_wf {c : Config} {p : Bool} {k : FailureKind} {rest : Response}
    (h : p = true → Response.wf c rest = true) : Response.wf c (require p k rest) = true := by
  cases p with
  | false => rfl
  | true => exact h rfl

theorem requireSize_wf {c : Config} {w : Nat} {size : Option Nat} {body : Nat → Response}
    (h : ∀ n, Response.wf c (body n) = true) : Response.wf c (requireSize w size body) = true :=
  require_wf fun _ => require_wf fun _ => h _

theorem sizedUnary_wf {c : Config} {a : Value} {size : Option Nat} {body : (n : Nat) → BitVec n → Response}
    (h : ∀ n A, Response.wf c (body n A) = true) : Response.wf c (sizedUnary a size body) = true :=
  requireSize_wf fun n => h n _

theorem sizedBinary_wf {c : Config} {a b : Value} {size : Option Nat}
    {body : (n : Nat) → BitVec n → BitVec n → Response} (h : ∀ n A B, Response.wf c (body n A B) = true) :
    Response.wf c (sizedBinary a b size body) = true :=
  require_wf fun _ => requireSize_wf fun n => h n _ _

/-- An answered request leaves a well-formed response when the response is well formed given what answering has checked:
the operands are values of the spec within WMAX, and so are the widths asked for. -/
theorem answer_responseWf {st t : State} {ops : List Value} {asked : List Nat} {r : Response}
    (hr : (∀ v ∈ ops, Result.wf st.config (.value v) = true) → (∀ n ∈ asked, st.config.fits n = true) →
      Response.wf st.config r = true)
    (h : answer st ops asked r = .next t) : t.responseWf = true := by
  rw [answer_eq_next h, respond_responseWf]
  rcases answer_cases st ops asked r with ⟨-, e⟩ | ⟨-, -, e⟩ | ⟨hwf, hfits, hasked, -⟩
  · simp [e] at h
  · simp [e] at h
  · rw [List.all_eq_true] at hwf hfits hasked
    exact hr (fun v hv => by simp [Result.wf, hwf v hv, hfits v hv]) hasked

/-- What every operation answers with is well formed. A constructor and an extension give the width they are asked for, a
truncation a width below that of its operand, and every other value has the width of the left operand. -/
theorem exec_eq_answer_wf (i : Instr) (st : State) :
    ∃ r, exec i st = answer st i.operands i.askedWidths r ∧
      ((∀ v ∈ i.operands, Result.wf st.config (.value v) = true) → (∀ n ∈ i.askedWidths, st.config.fits n = true) →
        Response.wf st.config r = true) := by
  cases i with
  | zero n =>
    exact ⟨_, rfl, fun _ hasked => require_wf fun hn => value_wf (of_decide_eq_true hn) (hasked n (.head _)) _⟩
  | fromInteger _ n | fromBits _ n =>
    exact ⟨_, rfl, fun _ hasked => require_wf fun hn => require_wf fun _ =>
      value_wf (of_decide_eq_true hn) (hasked n (.head _)) _⟩
  | zeroExtend a n | signExtend a n =>
    exact ⟨_, rfl, fun _ hasked => require_wf fun hlt =>
      value_wf (Nat.one_le_of_lt (of_decide_eq_true hlt)) (hasked n (.head _)) _⟩
  | truncate a n =>
    refine ⟨_, rfl, fun hops _ => require_wf fun hlt => require_wf fun hn =>
      value_wf (of_decide_eq_true hn) (Config.fits_of_le ?_ (Nat.le_of_lt (of_decide_eq_true hlt))) _⟩
    exact (Bool.and_eq_true_iff.mp (hops a (.head _))).2
  | width | asUnsigned | asSigned | asHex | asBinaryText | valueEq =>
    exact ⟨_, rfl, fun _ _ => rfl⟩
  | bit | valueLt =>
    exact ⟨_, rfl, fun _ _ => require_wf fun _ => returnBool_wf _ _⟩
  | copy =>
    exact ⟨_, rfl, fun hops _ => hops _ (.head _)⟩
  | spliceLow a b =>
    exact ⟨_, rfl, fun hops _ => require_wf fun _ => returnSpliced_wf (hops a (.head _)) b.b⟩
  | add | sub | mul | bitAnd | bitOr | bitXor =>
    exact ⟨_, rfl, fun hops _ => sizedBinary_wf fun _ _ _ => returnSpliced_wf (hops _ (.head _)) _⟩
  | udiv | urem | sdiv | srem =>
    exact ⟨_, rfl, fun hops _ => sizedBinary_wf fun _ _ _ => require_wf fun _ =>
      returnSpliced_wf (hops _ (.head _)) _⟩
  | bitNot | shiftLeft | logicalShiftRight | arithmeticShiftRight =>
    exact ⟨_, rfl, fun hops _ => sizedUnary_wf fun _ _ => returnSpliced_wf (hops _ (.head _)) _⟩
  | eq | neq | ult | ule | ugt | uge | slt | sle | sgt | sge =>
    exact ⟨_, rfl, fun _ _ => sizedBinary_wf fun _ _ _ => returnBool_wf _ _⟩

/-- Every operation that is answered leaves a well-formed response. -/
theorem exec_responseWf {i : Instr} {st t : State} (h : exec i st = .next t) : t.responseWf = true := by
  obtain ⟨r, e, hr⟩ := exec_eq_answer_wf i st
  exact answer_responseWf hr (e ▸ h)

/-! ### Arithmetic modulo 2^n -/

/-- The low field of a spliced `bv_n(k)` is k modulo 2^n. -/
theorem splice_bv_lowUnsigned (x : Value) {n : Nat} (h : n ≤ x.w) (k : Int) :
    ((splice x (bv n k)).lowUnsigned n : Int) = k % 2 ^ n := by
  rw [splice_lowUnsigned x _ h, bv_toNat, Int.toNat_of_nonneg (Int.emod_nonneg _ (by positivity))]

/-- An operation that splices `bv_n` of an integer function of the unsigned low fields answers with any integer congruent
to that function's result. -/
theorem answers_modulo_of_legal {i : Instr} {st : State} {a b : Value} {size : Option Nat} {n : Nat}
    {f : Int → Int → Int} {k : Int}
    (e : exec i st = answer st [a, b] [] (sizedBinary a b size fun n A B =>
      returnSpliced a (bv n (f (unsigned A) (unsigned B)))))
    (hwf : ([a, b].all Value.wf && [a, b].all (fun v => st.config.fits v.w) && ([] : List Nat).all st.config.fits) = true)
    (hw : a.w = b.w) (hs : LegalSize a.w size n)
    (hk : k ≡ f (a.lowUnsigned n) (b.lowUnsigned n) [ZMOD 2 ^ n]) :
    ∃ v : Value, Answers i st (.value v) ∧ (v.lowUnsigned n : Int) = k % 2 ^ n := by
  refine ⟨_, exec_binary_of_legal e hwf hw hs, ?_⟩
  obtain ⟨-, -, hle⟩ := hs
  rw [splice_bv_lowUnsigned a hle, unsigned_low, unsigned_low]
  exact hk.symm

/-! ### The obligations -/

/-- Settles O13: an unassigned code shows no value, and every operation leaves a well-formed response. -/
theorem everyStepKeepsResultsWellFormed : Obligations.EveryStepKeepsResultsWellFormed := by
  intro st t _ h
  obtain ⟨r, rest, -, ⟨e, -, rfl⟩ | ⟨i, -, hexec⟩⟩ := step_eq_next h
  · rfl
  · exact exec_responseWf hexec

/-- Settles O26: the readings are `u` and `s` of all the bits, and `u` is the weighted sum. -/
theorem readingsAreWeightedSums : Obligations.ReadingsAreWeightedSums := by
  intro st a hwf hfits
  have hanswered : ([a].all Value.wf && [a].all (fun v => st.config.fits v.w) &&
      ([] : List Nat).all st.config.fits) = true := by simp [hwf, hfits]
  exact ⟨unsigned a.b, signed a.b, answer_of_wf _ hanswered, answer_of_wf _ hanswered, a.toNat_eq_sum_weights, rfl⟩

/-- Settles O39: the signed readings are congruent to the unsigned ones the operations compute with. -/
theorem addSubMulAgreeWithSignedReadings : Obligations.AddSubMulAgreeWithSignedReadings := by
  intro st a b size n hwf hw hs
  have ha := a.lowSigned_modEq n
  have hb := b.lowSigned_modEq n
  exact ⟨answers_modulo_of_legal (f := (· + ·)) rfl hwf hw hs (ha.add hb),
    answers_modulo_of_legal (f := (· - ·)) rfl hwf hw hs (ha.sub hb),
    answers_modulo_of_legal (f := (· * ·)) rfl hwf hw hs (ha.mul hb)⟩

/-- Settles O8, by the reset state's fields and the empty queue's step. -/
theorem resetPresentsNoRequest : Obligations.ResetPresentsNoRequest :=
  ⟨reset_pending, reset_response, rfl, fun _ => step_of_pending_nil⟩

end Sys2Proof.Machine
end

section
/-! PROOFS. The statements of 10_state.md. -/

namespace Sys2Proof

/-! ### What a request carries -/

/-- The decoded size is the one carried in `sz_en` and `size` (30_encoding.md R67). -/
theorem sizeOperand_of_carried {r : Request} {size : Option Nat} (hen : r.szEn = size.isSome)
    (hsize : r.szEn = true → r.size = size.getD 0) : r.sizeOperand = size := by
  rw [sizeOperand_eq hen hsize]
  cases size <;> rfl

/-- Assembling from the fields of the format gives back the operands carried there (R61, R63): one argument per format. -/
theorem assemble_of_carries {r : Request} {i : Instr} (h : r.carries i) : assemble i.op r = i := by
  obtain ⟨-, hfield⟩ := h
  cases i with
  | zero n =>
    obtain rfl : r.n = n := hfield .n (.head _)
    rfl
  | fromInteger k n =>
    obtain rfl : r.k = k := hfield .k (.head _)
    obtain rfl : r.n = n := hfield .n (.tail _ (.head _))
    rfl
  | fromBits seq n =>
    obtain rfl : r.seq = seq := hfield .seq (.head _)
    obtain rfl : r.n = n := hfield .n (.tail _ (.head _))
    rfl
  | width a | asUnsigned a | asSigned a | asHex a | asBinaryText a | copy a =>
    obtain rfl : r.a = a := hfield .a (.head _)
    rfl
  | bit a k =>
    obtain rfl : r.a = a := hfield .a (.head _)
    obtain rfl : r.k = k := hfield .k (.tail _ (.head _))
    rfl
  | spliceLow a b | valueEq a b | valueLt a b =>
    obtain rfl : r.a = a := hfield .a (.head _)
    obtain rfl : r.b = b := hfield .b (.tail _ (.head _))
    rfl
  | zeroExtend a n | signExtend a n | truncate a n =>
    obtain rfl : r.a = a := hfield .a (.head _)
    obtain rfl : r.n = n := hfield .n (.tail _ (.head _))
    rfl
  | bitNot a size | shiftLeft a size | logicalShiftRight a size | arithmeticShiftRight a size =>
    obtain rfl : r.a = a := hfield .a (.head _)
    obtain rfl : r.sizeOperand = size :=
      sizeOperand_of_carried (hfield .szEn (.tail _ (.head _))) (hfield .size (.tail _ (.tail _ (.head _))))
    rfl
  | add a b size | sub a b size | mul a b size | udiv a b size | urem a b size | sdiv a b size | srem a b size
  | bitAnd a b size | bitOr a b size | bitXor a b size
  | eq a b size | neq a b size | ult a b size | ule a b size | ugt a b size | uge a b size
  | slt a b size | sle a b size | sgt a b size | sge a b size =>
    obtain rfl : r.a = a := hfield .a (.head _)
    obtain rfl : r.b = b := hfield .b (.tail _ (.head _))
    obtain rfl : r.sizeOperand = size :=
      sizeOperand_of_carried (hfield .szEn (.tail _ (.tail _ (.head _))))
        (hfield .size (.tail _ (.tail _ (.tail _ (.head _)))))
    rfl

/-- A request decodes to the instruction it carries, whatever its other fields hold (R61). -/
theorem decode_of_carries {r : Request} {i : Instr} (h : r.carries i) : decode r = .ok i := by
  have hop : Op.ofCode r.op = some i.op := h.1 ▸ Op.ofCode_code i.op
  simp only [decode, hop, assemble_of_carries h]

end Sys2Proof

namespace Sys2Proof.Machine

/-! ### What a step depends on -/

/-- Instances with the same parameters all answer an operation with one response, or all refuse it for one reason. -/
theorem exec_respond_or_refused (c : Config) (i : Instr) :
    (∃ resp, ∀ st : State, st.config = c → exec i st = .next (respond st resp)) ∨
    (∃ q, ∀ st : State, st.config = c → exec i st = .refused q) := by
  obtain ⟨r, hr⟩ := exec_eq_answer i
  cases hwf : i.operands.all Value.wf with
  | false => exact .inr ⟨.illFormedOperand, fun st _ => by simp [hr, answer, hwf]⟩
  | true =>
    cases hfits : i.operands.all (fun v => c.fits v.w) && i.askedWidths.all c.fits with
    | false => exact .inr ⟨.aboveWmax, fun st hc => by simp [hr, answer, hwf, hc, hfits]⟩
    | true => exact .inl ⟨r c, fun st hc => by simp only [hr, answer, hwf, hc, hfits, if_true]⟩

/-- A step depends on the parameters and on what the oldest request decodes to (10_state.md R22): either every such step
takes that request and answers it with one response, or every such step is refused for one reason. -/
theorem step_respond_or_refused (c : Config) (d : Except DecodeError Instr) :
    (∃ resp, ∀ (st : State) (r : Request) (rest : List Request), st.config = c → st.pending = r :: rest →
      decode r = d → step st = .next (respond { st with pending := rest } resp)) ∨
    (∃ q, ∀ (st : State) (r : Request) (rest : List Request), st.config = c → st.pending = r :: rest →
      decode r = d → step st = .refused q) := by
  cases d with
  | error e =>
    exact .inl ⟨.failure .illegalOp, fun st r rest _ hp hd => by simp only [step, hp, hd, raise_eq_respond]⟩
  | ok i =>
    obtain ⟨resp, h⟩ | ⟨q, h⟩ := exec_respond_or_refused c i
    · exact .inl ⟨resp, fun st r rest hc hp hd => by simpa only [step, hp, hd] using h { st with pending := rest } hc⟩
    · exact .inr ⟨q, fun st r rest hc hp hd => by simpa only [step, hp, hd] using h { st with pending := rest } hc⟩

/-- A request that is answered alone is answered with the same response from any earlier response and in front of any
later requests (R22). -/
theorem step_of_answered_alone {c : Config} {r : Request} {resp : Response}
    (h : responseOf (step (presented c r)) = some resp) (rest : List Request) (earlier : Option Response) :
    step { config := c, pending := r :: rest, response := earlier } =
      .next { config := c, pending := rest, response := some resp } := by
  obtain ⟨resp', hstep⟩ | ⟨q, hstep⟩ := step_respond_or_refused c (decode r)
  · rw [hstep (presented c r) r [] rfl rfl rfl] at h
    obtain rfl : resp' = resp := Option.some.inj h
    exact hstep _ r rest rfl rfl rfl
  · rw [hstep (presented c r) r [] rfl rfl rfl] at h
    cases h

/-! ### Runs -/

/-- A run over requests that are each answered alone gives the responses they get alone, in order (20_memory.md R49 (a)). -/
theorem responsesOf_answered_alone (c : Config) (more : List Request) (rs : List Request)
    (h : ∀ r ∈ rs, (responseOf (step (presented c r))).isSome) (earlier : Option Response) :
    responsesOf rs.length { config := c, pending := rs ++ more, response := earlier } =
      rs.filterMap fun r => responseOf (step (presented c r)) := by
  induction rs generalizing earlier with
  | nil => rfl
  | cons r rs ih =>
    obtain ⟨hr, hrs⟩ := List.forall_mem_cons.mp h
    obtain ⟨resp, hresp⟩ := Option.isSome_iff_exists.mp hr
    calc responsesOf (r :: rs).length { config := c, pending := r :: rs ++ more, response := earlier }
        = resp :: responsesOf rs.length { config := c, pending := rs ++ more, response := some resp } := by
          simp [responsesOf, step_of_answered_alone hresp]
      _ = resp :: rs.filterMap fun r => responseOf (step (presented c r)) := by rw [ih hrs]
      _ = (r :: rs).filterMap fun r => responseOf (step (presented c r)) := by simp [hresp]

/-! ### The obligations -/

/-- Settles O10: both requests decode to the instruction they carry, and a step depends on that and the parameters. -/
theorem responseDependsOnTheRequestAlone : Obligations.ResponseDependsOnTheRequestAlone := by
  intro st st' r r' rest rest' i hconfig hp hp' hcarries hcarries'
  have hd := decode_of_carries hcarries
  have hd' := decode_of_carries hcarries'
  obtain ⟨resp, hstep⟩ | ⟨q, hstep⟩ := step_respond_or_refused st.config (.ok i)
  all_goals rw [hstep st r rest rfl hp hd, hstep st' r' rest' hconfig.symm hp' hd']
  · exact ⟨rfl, fun _ => ⟨_, rfl⟩, fun _ => ⟨_, rfl⟩⟩
  · simp [responseOf]

/-- Settles O11: with nothing presented a step is refused, and otherwise the oldest request is answered or refused. -/
theorem stepAnswersOneRequestAndChangesNothingElse : Obligations.StepAnswersOneRequestAndChangesNothingElse := by
  intro st
  cases hp : st.pending with
  | nil => simp [step_of_pending_nil hp]
  | cons r rest =>
    obtain ⟨resp, hstep⟩ | ⟨q, hstep⟩ := step_respond_or_refused st.config (decode r)
    · rw [hstep st r rest rfl hp rfl]
      refine ⟨nofun, fun t ht => ?_⟩
      obtain rfl := Host.Outcome.next.inj ht
      exact ⟨r, resp, rfl, rfl, rfl⟩
    · rw [hstep st r rest rfl hp rfl]
      exact ⟨nofun, nofun⟩

/-- Settles O12: both runs give the responses the requests get alone, and those are permuted with the requests. -/
theorem runGivesEachRequestItsOwnResponse : Obligations.RunGivesEachRequestItsOwnResponse := by
  intro c rs rs' more more' resp resp' h hperm
  have h' : ∀ r ∈ rs', (responseOf (step (presented c r))).isSome := fun r hr => h r (hperm.mem_iff.mpr hr)
  rw [responsesOf_answered_alone c more rs h, responsesOf_answered_alone c more' rs' h']
  exact ⟨rfl, hperm.filterMap _⟩

/-- Settles O14: no response is shown at reset. -/
theorem resetResponseIsWellFormed : Obligations.ResetResponseIsWellFormed := by
  simp only [Obligations.ResetResponseIsWellFormed, State.responseWf, reset_response]

end Sys2Proof.Machine
end

section
/-! PROOFS. The statements of 20_memory.md. -/

namespace Sys2Proof

/-- A word of the opcode table stands for what its request decodes to (30_encoding.md R65). -/
theorem decode_tableRequest {nbits w : Nat} {i : Instr} (h : decodeTableWord nbits w = some i) :
    decode (tableRequest nbits w) = .ok i := by
  obtain ⟨-, hd⟩ := Option.ite_none_right_eq_some.mp h
  cases hr : decode (tableRequest nbits w) with
  | error e => simp [hr, Except.toOption] at hd
  | ok j => simpa [hr, Except.toOption] using hd

end Sys2Proof

namespace Sys2Proof.Machine

/-- A step executes what the oldest request decodes to, once that request has been taken (20_memory.md R46). -/
theorem step_of_decode_ok {st : State} {r : Request} {rest : List Request} {i : Instr} (hp : st.pending = r :: rest)
    (hd : decode r = .ok i) : step st = exec i { st with pending := rest } := by
  simp only [step, hp, hd]

/-- Settles O7: a table word's request is the oldest one presented, and taking it gives back the state before. -/
theorem stepRunsTheDecodedRequest : Obligations.StepRunsTheDecodedRequest :=
  ⟨fun _ _ _ _ => step_of_decode_ok,
    fun st nbits w _ h => step_of_decode_ok (withFetchWord_pending st nbits w) (decode_tableRequest h)⟩

end Sys2Proof.Machine
end

section
/-! PROOFS. The statements of 30_encoding.md. -/

namespace Sys2Proof

/-! ### What decodes to what -/

/-- No two operations share a code (30_encoding.md R65): each is found under its own. -/
theorem Op.code_injective : Function.Injective Op.code := by
  intro o o' h
  have hfound : some o = some o' := by rw [← Op.ofCode_code o, h, Op.ofCode_code]
  exact Option.some.inj hfound

/-- Decoding gives the operation found under the op code, its operands assembled from the request. -/
theorem decode_eq_ok_iff {r : Request} {i : Instr} :
    decode r = .ok i ↔ ∃ o, Op.ofCode r.op = some o ∧ assemble o r = i := by
  unfold decode
  cases Op.ofCode r.op <;> simp

/-- A request with the code of an operation decodes to that operation. -/
theorem decode_of_code {o : Op} {r : Request} (h : o.code = r.op) : decode r = .ok (assemble o r) :=
  decode_eq_ok_iff.mpr ⟨o, h ▸ Op.ofCode_code o, rfl⟩

/-- A request with the code of no operation is refused by that code (R70). -/
theorem decode_of_unassigned {r : Request} (h : ∀ o : Op, o.code ≠ r.op) : decode r = .error (.unassigned r.op) := by
  simp only [decode, Op.ofCode_eq_none_iff.mpr h]

/-! ### What an encoded request carries -/

/-- An instruction is encoded under the code of its operation (R66). -/
theorem encode_op (i : Instr) : (encode i).op = i.op.code := by cases i <;> rfl

/-- An encoded instruction carries its own operands. -/
theorem encode_carries (i : Instr) : (encode i).carries i := by
  refine ⟨encode_op i, fun f _ => ?_⟩
  cases f with
  | size => exact fun _ => rfl
  | a | b | szEn | n | k | seq => rfl

theorem isSome_sizeOperand (r : Request) : r.sizeOperand.isSome = r.szEn := by
  cases h : r.szEn <;> simp [Request.sizeOperand, h]

theorem getD_sizeOperand {r : Request} (h : r.szEn = true) : r.sizeOperand.getD 0 = r.size := by
  simp [Request.sizeOperand, h]

/-- A request carries what is assembled from it: each field its format lists goes into an operand, `sz_en` and `size`
together into one (R63, R67). The cases are the formats by the number of fields they list. -/
theorem carries_assemble {o : Op} {r : Request} (h : o.code = r.op) : r.carries (assemble o r) := by
  refine ⟨by rw [assemble_op, h], ?_⟩
  cases o with
  | zero | width | asUnsigned | asSigned | asHex | asBinaryText | copy =>
    exact List.forall_mem_singleton.mpr rfl
  | fromInteger | fromBits | bit | spliceLow | valueEq | valueLt | zeroExtend | signExtend | truncate =>
    exact List.forall_mem_cons.mpr ⟨rfl, List.forall_mem_singleton.mpr rfl⟩
  | bitNot | shiftLeft | logicalShiftRight | arithmeticShiftRight =>
    exact List.forall_mem_cons.mpr ⟨rfl, List.forall_mem_cons.mpr ⟨(isSome_sizeOperand r).symm,
      List.forall_mem_singleton.mpr fun hen => (getD_sizeOperand hen).symm⟩⟩
  | add | sub | mul | udiv | urem | sdiv | srem | bitAnd | bitOr | bitXor
  | eq | neq | ult | ule | ugt | uge | slt | sle | sgt | sge =>
    exact List.forall_mem_cons.mpr ⟨rfl, List.forall_mem_cons.mpr ⟨rfl, List.forall_mem_cons.mpr
      ⟨(isSome_sizeOperand r).symm, List.forall_mem_singleton.mpr fun hen => (getD_sizeOperand hen).symm⟩⟩⟩

/-- A request decodes to exactly the instruction it carries (R61, R63, R67). -/
theorem decode_eq_ok_iff_carries {r : Request} {i : Instr} : decode r = .ok i ↔ r.carries i := by
  refine ⟨fun h => ?_, decode_of_carries⟩
  obtain ⟨o, ho, rfl⟩ := decode_eq_ok_iff.mp h
  exact carries_assemble (Op.code_of_ofCode ho)

/-! ### The codes, by range and by family -/

/-- No code of the table is in a range of R70. -/
theorem unassignedCode_code (o : Op) : unassignedCode o.code.toNat = false := by cases o <;> rfl

/-- The ranges of R70 leave no gap: a code in none of them is some operation's. -/
theorem unassignedCode_of_ofCode_eq_none : ∀ c : BitVec 8, Op.ofCode c = none → unassignedCode c.toNat = true := by
  decide

/-- The ranges of R70 are the codes of no operation. -/
theorem unassignedCode_iff (c : BitVec 8) : unassignedCode c.toNat = true ↔ ∀ o : Op, o.code ≠ c := by
  refine ⟨?_, fun h => unassignedCode_of_ofCode_eq_none c (Op.ofCode_eq_none_iff.mpr h)⟩
  rintro h o rfl
  rw [unassignedCode_code] at h
  cases h

/-- R64 assigns the family nibbles 0 to 6 only. -/
theorem Family.ofNibble_eq_none {f : BitVec 4} (h : 7 ≤ f.toNat) : Family.ofNibble f = none := by
  unfold Family.ofNibble
  split
  case h_8 => rfl
  all_goals omega

/-- Every code of the table has one of the assigned family nibbles. -/
theorem opFamilyNibble_code_lt (o : Op) : (opFamilyNibble o.code).toNat < 7 := by cases o <;> decide

/-! ### Words of the table -/

/-- A table word made of an operation's code decodes to that operation of zero operands. -/
theorem decodeTableWord_code (o : Op) : decodeTableWord 8 o.code.toNat = some (assemble o (Request.blank o.code)) := by
  cases o <;> rfl

/-- A table word made of an unassigned code decodes to nothing (R70). -/
theorem decodeTableWord_of_unassigned {c : BitVec 8} (h : unassignedCode c.toNat = true) :
    decodeTableWord 8 c.toNat = none := by
  have hop : (tableRequest 8 c.toNat).op = c := by
    rw [tableRequest, BitVec.toNat_mod_cancel, BitVec.ofNat_toNat, BitVec.setWidth_eq]
    rfl
  have hd : decode (tableRequest 8 c.toNat) = .error (.unassigned (tableRequest 8 c.toNat).op) :=
    decode_of_unassigned (by rw [hop]; exact (unassignedCode_iff c).mp h)
  simp [decodeTableWord, hd, Except.toOption]

end Sys2Proof

namespace Sys2Proof.Machine

/-! ### Responses -/

/-- A step takes a request that decodes to nothing and answers it with IllegalOp (30_encoding.md R70). -/
theorem step_of_decode_error {st : State} {r : Request} {rest : List Request} {e : DecodeError}
    (hp : st.pending = r :: rest) (hd : decode r = .error e) :
    step st = .next (raise { st with pending := rest } .illegalOp) := by
  simp only [step, hp, hd]

/-- A response whose result, if it has one, is of the kind given. -/
def Response.hasKind (kind : ResultKind) : Response → Prop
  | .ok r => resultKind r = kind
  | .failure _ => True

/-- A precondition does not change the kind of the result behind it. -/
theorem require_hasKind {kind : ResultKind} {p : Bool} {k : FailureKind} {rest : Response}
    (h : Response.hasKind kind rest) : Response.hasKind kind (require p k rest) := by
  cases p with
  | false => trivial
  | true => exact h

theorem requireSize_hasKind {kind : ResultKind} {w : Nat} {size : Option Nat} {body : Nat → Response}
    (h : ∀ n, Response.hasKind kind (body n)) : Response.hasKind kind (requireSize w size body) :=
  require_hasKind (require_hasKind (h _))

theorem sizedUnary_hasKind {kind : ResultKind} {a : Value} {size : Option Nat}
    {body : (n : Nat) → BitVec n → Response} (h : ∀ n A, Response.hasKind kind (body n A)) :
    Response.hasKind kind (sizedUnary a size body) :=
  requireSize_hasKind fun n => h n _

theorem sizedBinary_hasKind {kind : ResultKind} {a b : Value} {size : Option Nat}
    {body : (n : Nat) → BitVec n → BitVec n → Response} (h : ∀ n A B, Response.hasKind kind (body n A B)) :
    Response.hasKind kind (sizedBinary a b size body) :=
  require_hasKind (requireSize_hasKind fun n => h n _ _)

/-- What every operation answers with is of the kind its row of R66 gives it: the response is a result of that kind behind
the preconditions of the operation. -/
theorem exec_eq_answer_hasKind (i : Instr) (st : State) :
    ∃ r, exec i st = answer st i.operands i.askedWidths r ∧ Response.hasKind i.op.resultKind r := by
  cases i with
  | width | asUnsigned | asSigned | asHex | asBinaryText | copy | valueEq => exact ⟨_, rfl, rfl⟩
  | zero | zeroExtend | signExtend | bit | spliceLow | valueLt => exact ⟨_, rfl, require_hasKind rfl⟩
  | fromInteger | fromBits | truncate => exact ⟨_, rfl, require_hasKind (require_hasKind rfl)⟩
  | bitNot | shiftLeft | logicalShiftRight | arithmeticShiftRight =>
    exact ⟨_, rfl, sizedUnary_hasKind fun _ _ => rfl⟩
  | add | sub | mul | bitAnd | bitOr | bitXor | eq | neq | ult | ule | ugt | uge | slt | sle | sgt | sge =>
    exact ⟨_, rfl, sizedBinary_hasKind fun _ _ _ => rfl⟩
  | udiv | urem | sdiv | srem => exact ⟨_, rfl, sizedBinary_hasKind fun _ _ _ => require_hasKind rfl⟩

/-- No failure shows the code of a success (60_exceptions.md R241). -/
theorem failureCode_ne_zero (k : FailureKind) : failureCode k ≠ 0#3 := by cases k <;> decide

/-- The code 7 is never shown (R241). -/
theorem errField_ne_seven (r : Response) : errField r ≠ 7#3 := by
  cases r with
  | ok r => exact (by decide : 0#3 ≠ 7#3)
  | failure k => cases k <;> decide

/-- A result is shown in exactly one of the four result fields (R62). -/
theorem one_field_of_ok (r : Result) :
    (yField (.ok r)).isSome.toNat + (fField (.ok r)).isSome.toNat + (zField (.ok r)).isSome.toNat +
      (tField (.ok r)).isSome.toNat = 1 := by
  cases r <;> rfl

/-! ### Sequences -/

theorem runSequence_cons_of_next {cfg : Config} {l : Line} {env env' : Bindings} (h : issueLine cfg env l = .next env')
    (ls : List Line) : runSequence cfg (l :: ls) env = runSequence cfg ls env' := by
  simp only [runSequence, h]

theorem runSequence_cons_of_fault {cfg : Config} {l : Line} {env : Bindings} {f : Fault}
    (h : issueLine cfg env l = .fault f) (ls : List Line) : runSequence cfg (l :: ls) env = .fault f := by
  simp only [runSequence, h]

/-- A sequence whose first part ends successfully goes on with the bindings of that part (R90). -/
theorem runSequence_append {cfg : Config} {ls : List Line} {env env' : Bindings}
    (h : runSequence cfg ls env = .next env') (ls' : List Line) :
    runSequence cfg (ls ++ ls') env = runSequence cfg ls' env' := by
  induction ls generalizing env with
  | nil =>
    obtain rfl : env = env' := Host.Outcome.next.inj h
    rfl
  | cons l ls ih =>
    rw [List.cons_append]
    cases hl : issueLine cfg env l with
    | next env₁ =>
      rw [runSequence_cons_of_next hl] at h ⊢
      exact ih h
    | fault f | refused q => simp only [runSequence, hl, reduceCtorEq] at h

/-- A response comes from a next state that shows it. -/
theorem responseOf_eq_some {o : Host.Outcome State Fault Refusal} {resp : Response} (h : responseOf o = some resp) :
    ∃ st, o = .next st ∧ st.response = some resp := by
  cases o with
  | next st => exact ⟨st, rfl, h⟩
  | fault f | refused q => cases h

theorem bindOutcome_of_ok {name : Text} {env : Bindings} {o : Host.Outcome State Fault Refusal} {res : Result}
    (h : responseOf o = some (.ok res)) : bindOutcome name env o = .next ((name, res) :: env) := by
  obtain ⟨st, rfl, hst⟩ := responseOf_eq_some h
  simp only [bindOutcome, hst]

theorem bindOutcome_of_failure {name : Text} {env : Bindings} {o : Host.Outcome State Fault Refusal} {k : FailureKind}
    (h : responseOf o = some (.failure k)) : bindOutcome name env o = .fault (.failure k) := by
  obtain ⟨st, rfl, hst⟩ := responseOf_eq_some h
  simp only [bindOutcome, hst]

/-- A line that resolves is answered as its request alone is (R90). -/
theorem issueLine_of_resolve {cfg : Config} {env : Bindings} {l : Line} {r : Request} (h : l.resolve env = some r) :
    issueLine cfg env l = bindOutcome l.name env (step (presented cfg r)) := by
  simp only [issueLine, h]

/-- A name bound to a value resolves to it as a value operand. -/
theorem resolveArg_name_of_value {env : Bindings} {x : Text} {v : Value} (h : lookupName env x = some (.value v)) :
    resolveArg fitValue env (.name x) = some v := by
  rw [resolveArg, h]
  rfl

/-- The line add of two names resolves, when they do, to the add of what they stand for; it reads no other field. -/
theorem resolve_add_names {env : Bindings} {x y : Text} {a b : Value} (name : Text)
    (hx : lookupName env x = some (.value a)) (hy : lookupName env y = some (.value b)) :
    ({ Line.blank name Op.add.code with a := .name x, b := .name y } : Line).resolve env =
      some (encode (.add a b none)) := by
  simp only [Line.resolve, resolveArg_name_of_value hx, resolveArg_name_of_value hy]
  rfl

/-! ### Sized operations -/

/-- Every sized operation of two values that returns a value splices a function of the low fields, behind a test of the
divisor's low field that only the four divisions can fail (42_arithmetic.md R159). -/
theorem exec_binaryValue_form {mk : Value → Value → Option Nat → Instr} (h : mk ∈ binaryValueOps) :
    ∃ (test : (n : Nat) → BitVec n → Bool) (f : (n : Nat) → BitVec n → BitVec n → BitVec n),
      ∀ a b size st, exec (mk a b size) st = answer st [a, b] [] (sizedBinary a b size fun n A B =>
        require (test n B) .divisionByZeroError (returnSpliced a (f n A B))) := by
  simp only [binaryValueOps, List.mem_cons, List.not_mem_nil, or_false] at h
  rcases h with rfl | rfl | rfl | rfl | rfl | rfl | rfl | rfl | rfl | rfl
  · exact ⟨fun _ _ => true, fun n A B => bv n (unsigned A + unsigned B), fun _ _ _ _ => rfl⟩
  · exact ⟨fun _ _ => true, fun n A B => bv n (unsigned A - unsigned B), fun _ _ _ _ => rfl⟩
  · exact ⟨fun _ _ => true, fun n A B => bv n (unsigned A * unsigned B), fun _ _ _ _ => rfl⟩
  · exact ⟨fun _ B => unsigned B != 0, fun n A B => bv n (unsigned A / unsigned B : Nat), fun _ _ _ _ => rfl⟩
  · exact ⟨fun _ B => unsigned B != 0, fun n A B => bv n (unsigned A % unsigned B : Nat), fun _ _ _ _ => rfl⟩
  · exact ⟨fun _ B => unsigned B != 0, fun n A B => bv n (tdiv (signed A) (signed B)), fun _ _ _ _ => rfl⟩
  · exact ⟨fun _ B => unsigned B != 0, fun n A B => bv n (trem (signed A) (signed B)), fun _ _ _ _ => rfl⟩
  · exact ⟨fun _ _ => true, fun _ A B => A &&& B, fun _ _ _ _ => rfl⟩
  · exact ⟨fun _ _ => true, fun _ A B => A ||| B, fun _ _ _ _ => rfl⟩
  · exact ⟨fun _ _ => true, fun _ A B => A ^^^ B, fun _ _ _ _ => rfl⟩

/-- An explicit size from 1 to the width is legal. -/
theorem legalSize_some {w n : Nat} (h1 : 1 ≤ n) (hle : n ≤ w) : LegalSize w (some n) n := ⟨.inl rfl, h1, hle⟩

/-- An omitted size is legal: it is the width. -/
theorem legalSize_none {w : Nat} (h1 : 1 ≤ w) : LegalSize w none w := ⟨.inr ⟨rfl, rfl⟩, h1, Nat.le_refl w⟩

/-- The value that `truncate` keeps of an operand: its low `n` bits (41_width_change.md R143). -/
def truncated (a : Value) (n : Nat) : Value := ⟨n, low a n⟩

/-- The low field of a value at its own width is all its bits. -/
theorem low_width (v : Value) : low v v.w = v.b :=
  BitVec.eq_of_toNat_eq ((unsigned_low v v.w).trans v.lowUnsigned_width)

/-- The unsized operation on a truncated operand reads the field that the sized one reads of the operand. -/
theorem low_truncated (a : Value) (n : Nat) : low (truncated a n) n = low a n := low_width (truncated a n)

/-- A full-width splice into a truncated operand keeps nothing of it. -/
theorem splice_truncated (a : Value) {n : Nat} (r : BitVec n) : splice (truncated a n) r = ⟨n, r⟩ :=
  splice_full (truncated a n) r

/-- What answering checks of one operand. -/
theorem operand_wf_iff {c : Config} {a : Value} :
    ([a].all Value.wf && [a].all (fun v => c.fits v.w) && ([] : List Nat).all c.fits) = true ↔
      Result.wf c (.value a) = true := by
  simp [Result.wf]

/-- What answering checks of two operands is what it checks of each. -/
theorem operands_wf_iff {c : Config} {a b : Value} :
    ([a, b].all Value.wf && [a, b].all (fun v => c.fits v.w) && ([] : List Nat).all c.fits) = true ↔
      Result.wf c (.value a) = true ∧ Result.wf c (.value b) = true := by
  simp [Result.wf, and_and_and_comm]

/-- An omitted size is validated and read as the width (30_encoding.md R67). -/
theorem requireSize_none (w : Nat) (body : Nat → Response) : requireSize w none body = requireSize w (some w) body := rfl

/-- A value no wider than the operand is spliced into it (40_value.md R115). -/
theorem spliceLow_answers {st : State} {a y : Value} (ha : Result.wf st.config (.value a) = true)
    (hy : Result.wf st.config (.value y) = true) (hle : y.w ≤ a.w) :
    Answers (.spliceLow a y) st (.value (splice a y.b)) := by
  have h : exec (.spliceLow a y) st = .next (respond st _) := answer_of_wf _ (operands_wf_iff.mpr ⟨ha, hy⟩)
  rw [decide_eq_true hle, require_true] at h
  exact h

section
variable {st : State} {a b : Value} {n : Nat} (ha : Result.wf st.config (.value a) = true)
  (hb : Result.wf st.config (.value b) = true) (hw : a.w = b.w) (h1 : 1 ≤ n) (hlt : n < a.w)
include ha h1 hlt

/-- Every value of a narrower width is a value of the spec within WMAX. -/
theorem narrow_wf (x : BitVec n) : Result.wf st.config (.value ⟨n, x⟩) = true :=
  value_wf h1 (Config.fits_of_le (Bool.and_eq_true_iff.mp ha).2 (Nat.le_of_lt hlt)) x

/-- A truncation from 1 up to below the width succeeds (R143). -/
theorem truncate_answers : Answers (.truncate a n) st (.value (truncated a n)) := by
  have h : exec (.truncate a n) st = .next (respond st _) := answer_of_wf _ (operand_wf_iff.mpr ha)
  rw [decide_eq_true hlt, decide_eq_true h1, require_true, require_true] at h
  exact h

/-- A sized unary operation is the splice of the unsized one on the truncated operand. -/
theorem unary_sized_eq_splice {mk : Value → Option Nat → Instr} (h : mk ∈ unarySizedOps) :
    ∃ y v, Answers (mk (truncated a n) none) st (.value y) ∧ Answers (.spliceLow a y) st (.value v) ∧
      Answers (mk a (some n)) st (.value v) := by
  obtain ⟨f, e⟩ := exec_unary_form h
  obtain ⟨hwf, hfits⟩ := Bool.and_eq_true_iff.mp ha
  obtain ⟨htwf, htfits⟩ := Bool.and_eq_true_iff.mp (narrow_wf ha h1 hlt (low a n))
  have hsized := exec_unary_of_legal (e a (some n) st) hwf hfits (legalSize_some h1 (Nat.le_of_lt hlt))
  have hnarrow : exec (mk (truncated a n) none) st =
      .next (respond st (returnSpliced (truncated a n) (f n (low (truncated a n) n)))) :=
    exec_unary_of_legal (e (truncated a n) none st) htwf htfits (legalSize_none h1)
  rw [low_truncated, returnSpliced, splice_truncated] at hnarrow
  exact ⟨_, _, hnarrow, spliceLow_answers ha (narrow_wf ha h1 hlt _) (Nat.le_of_lt hlt), hsized⟩

include hb hw

/-- A sized binary operation and the unsized one on the truncated operands go on with the same low fields. -/
theorem binary_sized_and_narrow {mk : Value → Value → Option Nat → Instr}
    {body : Value → (n : Nat) → BitVec n → BitVec n → Response}
    (e : ∀ a b size st, exec (mk a b size) st = answer st [a, b] [] (sizedBinary a b size (body a))) :
    exec (mk a b (some n)) st = .next (respond st (body a n (low a n) (low b n))) ∧
      exec (mk (truncated a n) (truncated b n) none) st =
        .next (respond st (body (truncated a n) n (low a n) (low b n))) := by
  have hwf := operands_wf_iff.mpr ⟨ha, hb⟩
  have htwf := operands_wf_iff.mpr ⟨narrow_wf ha h1 hlt (low a n), narrow_wf hb h1 (hw ▸ hlt) (low b n)⟩
  refine ⟨exec_binary_of_legal (e a b (some n) st) hwf hw (legalSize_some h1 (Nat.le_of_lt hlt)), ?_⟩
  rw [← low_truncated a n, ← low_truncated b n]
  exact exec_binary_of_legal (e (truncated a n) (truncated b n) none st) htwf rfl (legalSize_none h1)

/-- A sized binary operation that returns a value is the splice of the unsized one on the truncated operands, and fails
with it. -/
theorem binaryValue_sized_eq_splice {mk : Value → Value → Option Nat → Instr} (h : mk ∈ binaryValueOps) :
    (∃ y v, Answers (mk (truncated a n) (truncated b n) none) st (.value y) ∧ Answers (.spliceLow a y) st (.value v) ∧
      Answers (mk a b (some n)) st (.value v)) ∨
    ∃ k, FailsWith (mk (truncated a n) (truncated b n) none) st k ∧ FailsWith (mk a b (some n)) st k := by
  obtain ⟨test, f, e⟩ := exec_binaryValue_form h
  obtain ⟨hsized, hnarrow⟩ := binary_sized_and_narrow ha hb hw h1 hlt e
  cases ht : test n (low b n) with
  | false =>
    rw [ht] at hsized hnarrow
    exact .inr ⟨_, hnarrow, hsized⟩
  | true =>
    rw [ht, require_true, returnSpliced] at hsized hnarrow
    rw [splice_truncated] at hnarrow
    exact .inl ⟨_, _, hnarrow, spliceLow_answers ha (narrow_wf ha h1 hlt _) (Nat.le_of_lt hlt), hsized⟩

/-- A sized comparison is the unsized one on the truncated operands. -/
theorem relational_sized_eq_narrow {mk : Value → Value → Option Nat → Instr} (h : mk ∈ relationalOps) :
    exec (mk a b (some n)) st = exec (mk (truncated a n) (truncated b n) none) st := by
  obtain ⟨test, e⟩ := exec_relational_form h
  obtain ⟨hsized, hnarrow⟩ := binary_sized_and_narrow ha hb hw h1 hlt e
  rw [hsized, hnarrow]

end

/-! ### The obligations -/

/-- Settles O1: an encoded instruction carries its own operands, and decoding reads exactly what a request carries. -/
theorem decodeReadsOpAndFormatFieldsOnly : Obligations.DecodeReadsOpAndFormatFieldsOnly :=
  ⟨fun i => decode_of_carries (encode_carries i), fun _ _ => decode_eq_ok_iff_carries⟩

/-- Settles O2: the two outcomes of decoding are those of looking the op code up, which reads no other field. -/
theorem opCodeAloneSelectsOneOperation : Obligations.OpCodeAloneSelectsOneOperation := by
  refine ⟨fun _ _ h => Op.code_injective h, fun r => ?_, fun r r' i hop h => ?_⟩
  · by_cases h : ∃ o : Op, o.code = r.op
    · obtain ⟨o, ho⟩ := h
      exact .inl ⟨o, ho, decode_of_code ho⟩
    · have hnone : ∀ o : Op, o.code ≠ r.op := not_exists.mp h
      exact .inr ⟨hnone, decode_of_unassigned hnone⟩
  · obtain ⟨o, ho, rfl⟩ := decode_eq_ok_iff.mp h
    have ho' : o.code = r'.op := (Op.code_of_ofCode ho).trans hop
    exact ⟨assemble o r', decode_of_code ho', by rw [assemble_op, assemble_op]⟩

/-- Settles O9: every operation answers its own operands, and answering tests the values first and the widths next. -/
theorem requestsAnsweredExactlyWhenWellFormed : Obligations.RequestsAnsweredExactlyWhenWellFormed := by
  intro i st
  obtain ⟨r, hr⟩ := exec_eq_answer i
  refine ⟨fun hwf => ⟨_, exec_of_wf hwf (hr st)⟩, fun hops => ?_, fun hops hwf => ?_⟩
  · rw [hr, answer, hops]
    rfl
  · simp only [Instr.wf, hops, Bool.true_and] at hwf
    rw [hr, answer, hops, hwf]
    rfl

/-- Settles O15: the result shown is the response the operation answers with, which is of its row's kind. -/
theorem resultHasTheKindOfTheTable : Obligations.ResultHasTheKindOfTheTable := by
  intro i st r h
  obtain ⟨resp, e, hkind⟩ := exec_eq_answer_hasKind i st
  have hanswer : answer st i.operands i.askedWidths resp = .next (succeed st r) := e ▸ h
  obtain rfl : Response.ok r = resp :=
    next_respond_inj (congrArg Host.Outcome.next ((succeed_eq_respond st r).symm.trans (answer_eq_next hanswer)))
  exact hkind

/-- Settles O17: the rest of a sequence runs from the bindings of its first part, and its first line decides. -/
theorem sequenceEndsAtItsFirstFailure : Obligations.SequenceEndsAtItsFirstFailure := by
  intro cfg ls ls' l env env' h
  rw [runSequence_append h]
  exact ⟨fun _ hl => runSequence_cons_of_fault hl ls', fun _ hl => runSequence_cons_of_next hl ls'⟩

/-- Settles O18: a line that resolves binds what its request's step responds with. -/
theorem lineBindsTheResultOfItsRequest : Obligations.LineBindsTheResultOfItsRequest := by
  intro cfg env l r hl
  rw [issueLine_of_resolve hl]
  exact ⟨fun _ => bindOutcome_of_ok, fun _ => bindOutcome_of_failure, fun _ _ _ _ => resolve_add_names l.name⟩

/-- Settles O37: an omitted size is the width, and the operation on the truncated operands goes on with the same low fields
as the sized one. -/
theorem sizedOperationIsSpliceOfTheTruncatedOne : Obligations.SizedOperationIsSpliceOfTheTruncatedOne := by
  refine ⟨fun mk hmk st a b => ?_, fun mk hmk st a => ?_, fun st a b n hwf hw h1 hlt => ?_⟩
  · obtain ⟨body, e⟩ := exec_binary_form hmk
    rw [e, e, sizedBinary, sizedBinary, requireSize_none]
  · obtain ⟨body, e⟩ := exec_unary_form hmk
    rw [e, e, sizedUnary, sizedUnary, requireSize_none]
  · obtain ⟨ha, hb⟩ := operands_wf_iff.mp hwf
    exact ⟨truncated a n, truncated b n, truncate_answers ha h1 hlt, truncate_answers hb h1 (hw ▸ hlt),
      fun _ => binaryValue_sized_eq_splice ha hb hw h1 hlt, fun _ => unary_sized_eq_splice ha h1 hlt,
      fun _ => relational_sized_eq_narrow ha hb hw h1 hlt⟩

/-- Settles O3: the ranges are the codes that decode to nothing, and such a request is answered with IllegalOp. -/
theorem unassignedCodesAnswerIllegalOp : Obligations.UnassignedCodesAnswerIllegalOp :=
  ⟨rfl, unassignedCode_iff, rfl, fun _ r _ hp hr =>
    step_of_decode_error hp (decode_of_unassigned ((unassignedCode_iff r.op).mp hr))⟩

/-- Settles O5: the rows of each family, one by one; a nibble of 7 or more is the nibble of no row. -/
theorem familyNibbleGivesTheFamily : Obligations.FamilyNibbleGivesTheFamily := by
  refine ⟨by decide, by decide, by decide, by decide, by decide, by decide, by decide, fun c h => ?_⟩
  refine ⟨Family.ofNibble_eq_none h, Op.ofCode_eq_none_iff.mpr ?_⟩
  rintro o rfl
  exact absurd (opFamilyNibble_code_lt o) (Nat.not_lt.mpr h)

/-- Settles O6: seven words are codes of their operations, and the last is in a range of R70. -/
theorem writtenWordsDecode : Obligations.WrittenWordsDecode :=
  ⟨decodeTableWord_code .zero, decodeTableWord_code .asSigned, decodeTableWord_code .truncate,
    decodeTableWord_code .sdiv, decodeTableWord_code .bitNot, decodeTableWord_code .arithmeticShiftRight,
    decodeTableWord_code .sge, decodeTableWord_of_unassigned (c := 0x37#8) rfl⟩

/-- Settles O16: a result is shown in its one field with code 0, a failure by its code alone. -/
theorem errCodesAndResponseFields : Obligations.ErrCodesAndResponseFields := by
  refine ⟨fun _ => rfl, rfl, rfl, rfl, rfl, rfl, rfl, errField_ne_seven, fun r => ?_⟩
  cases r with
  | ok r => exact ⟨fun _ => one_field_of_ok r, fun h => absurd rfl h⟩
  | failure k => exact ⟨fun h => absurd h (failureCode_ne_zero k), fun _ => ⟨rfl, rfl, rfl, rfl⟩⟩

end Sys2Proof.Machine
end

section
/-! PROOFS. The statements of 40_value.md. -/

namespace Sys2Proof

/-- The sign bit is 0 exactly when the unsigned reading is in the lower half of its range (00_scope.md R12). -/
theorem Value.signBit_eq_false_iff (v : Value) : v.bitAt (v.w - 1) = false ↔ v.b.toNat < 2 ^ (v.w - 1) := by
  have hmsb : v.bitAt (v.w - 1) = v.b.msb := (BitVec.msb_eq_getLsbD_last v.b).symm
  rw [hmsb, BitVec.msb_eq_decide, decide_eq_false_iff_not, Nat.not_le]

/-- Equality of values is equality of the widths and of the bits inside them (40_value.md R111). -/
theorem Value.eq_iff_bits {x y : Value} : x = y ↔ x.w = y.w ∧ ∀ i, i < x.w → x.bitAt i = y.bitAt i := by
  refine ⟨?_, fun ⟨hw, hb⟩ => Value.eq_of_bits hw hb⟩
  rintro rfl
  exact ⟨rfl, fun _ _ => rfl⟩

/-- Equality of values is equality of the widths and of the unsigned readings. -/
theorem Value.eq_iff_toNat {x y : Value} : x = y ↔ x.w = y.w ∧ x.b.toNat = y.b.toNat := by
  refine ⟨?_, fun ⟨hw, hb⟩ => Value.eq_of_toNat hw hb⟩
  rintro rfl
  exact ⟨rfl, rfl⟩

/-- A value with no bit set reads 0. -/
theorem Value.toNat_eq_zero {v : Value} (h : ∀ i, v.bitAt i = false) : v.b.toNat = 0 :=
  Nat.zero_of_testBit_eq_false h

/-- The highest set bit of a value is the logarithm of its unsigned reading, which is then not 0. -/
theorem Value.log2_of_highest {v : Value} {m : Nat} (hm : v.bitAt m = true) (habove : ∀ i, m < i → v.bitAt i = false) :
    v.b.toNat ≠ 0 ∧ Nat.log2 v.b.toNat = m := by
  have hlow : 2 ^ m ≤ v.b.toNat := Nat.ge_two_pow_of_testBit hm
  have hhigh : v.b.toNat < 2 ^ (m + 1) := Nat.lt_pow_two_of_testBit _ habove
  have hne : v.b.toNat ≠ 0 := Nat.ne_of_gt (Nat.lt_of_lt_of_le (Nat.two_pow_pos m) hlow)
  exact ⟨hne, (Nat.log2_eq_iff hne).mpr ⟨hlow, hhigh⟩⟩

end Sys2Proof

namespace Sys2Proof.Machine

/-! ### Preconditions and answers -/

theorem require_of {p : Prop} [Decidable p] (h : p) (k : FailureKind) (rest : Response) :
    require (decide p) k rest = rest := by
  rw [decide_eq_true h, require_true]

theorem require_of_not {p : Prop} [Decidable p] (h : ¬p) (k : FailureKind) (rest : Response) :
    require (decide p) k rest = .failure k := by
  rw [decide_eq_false h, require_false]

/-- A constructor within WMAX is answered. -/
theorem exec_constructor {i : Instr} {st : State} {n : Nat} {r : Response} (e : exec i st = answer st [] [n] r)
    (hfits : st.config.fits n = true) : exec i st = .next (respond st r) := by
  rw [e]
  exact answer_of_wf r (by simp [hfits])

/-- A function of one value of the spec within WMAX is answered. -/
theorem exec_valueFunction {i : Instr} {st : State} {a : Value} {r : Response} (e : exec i st = answer st [a] [] r)
    (hwf : a.wf = true) (hfits : st.config.fits a.w = true) : exec i st = .next (respond st r) := by
  rw [e]
  exact answer_of_wf r (operand_wf_iff.mpr (Bool.and_eq_true_iff.mpr ⟨hwf, hfits⟩))

/-- An extension of a value of the spec to a width within WMAX is answered. -/
theorem exec_extension {i : Instr} {st : State} {a : Value} {n : Nat} {r : Response}
    (e : exec i st = answer st [a] [n] r) (ha : Result.wf st.config (.value a) = true)
    (hfits : st.config.fits n = true) : exec i st = .next (respond st r) := by
  obtain ⟨hwf, hw⟩ := Bool.and_eq_true_iff.mp ha
  rw [e]
  exact answer_of_wf r (by simp [hwf, hw, hfits])

/-! ### Readings and the bit-strings they give back -/

/-- `u(bv_n(k))` is k modulo 2^n, for k of either sign. -/
theorem unsigned_bv (n : Nat) (k : Int) : ((bv n k).toNat : Int) = k % 2 ^ n := by
  rw [bv_toNat, Int.toNat_of_nonneg (Int.emod_nonneg _ (by positivity))]

/-- A bit-string is rebuilt from its unsigned reading (R108). -/
theorem bv_unsigned {n : Nat} (x : BitVec n) : bv n (unsigned x) = x := by
  rw [bv_natCast, unsigned, BitVec.ofNat_toNat, BitVec.setWidth_eq]

/-- A bit-string is rebuilt from its signed reading (R108). -/
theorem bv_signed {n : Nat} (x : BitVec n) : bv n (signed x) = x := by
  rw [signed_eq_toInt, bv, BitVec.ofInt_toInt]

/-- The bits of a sequence, those past its end and inside the width zero (R102). -/
theorem getLsbD_bitsOfSeq (n : Nat) (seq : List Bool) (i : Nat) :
    (bitsOfSeq n seq).getLsbD i = (decide (i < n) && seq.getD i false) := by
  rw [bitsOfSeq, BitVec.getLsbD_setWidth, BitVec.getLsbD_ofBoolListLE]

/-- A value is rebuilt from the sequence of its bits (R108). -/
theorem bitsOfSeq_bits (x : Value) : (⟨x.w, bitsOfSeq x.w ((List.range x.w).map x.bitAt)⟩ : Value) = x := by
  refine Value.eq_of_bits rfl fun i hi => ?_
  have hx : i < x.w := hi
  rw [Value.bitAt, getLsbD_bitsOfSeq]
  simp [hx]

/-- Zero extension keeps the unsigned reading (41_width_change.md R141). -/
theorem unsigned_zext {m n : Nat} (h : m ≤ n) (x : BitVec m) : unsigned (zext n x) = unsigned x := by
  rw [zext_eq_setWidth, unsigned, BitVec.toNat_setWidth_of_le h, unsigned]

/-- Sign extension keeps the signed reading (R142). -/
theorem signed_sext {m n : Nat} (h : m ≤ n) (x : BitVec m) : signed (sext n x) = signed x := by
  rw [sext_eq_signExtend, signed_eq_toInt, BitVec.toInt_signExtend_of_le h, signed_eq_toInt]

theorem truncated_bitAt (a : Value) (n i : Nat) : (truncated a n).bitAt i = (decide (i < n) && a.bitAt i) :=
  getLsbD_low a n i

/-- Truncations compose: the bits below n are among those below m (R145). -/
theorem truncated_truncated (a : Value) {m n : Nat} (h : n ≤ m) : truncated (truncated a m) n = truncated a n := by
  refine Value.eq_of_bits rfl fun i hi => ?_
  have hm : i < m := Nat.lt_of_lt_of_le hi h
  rw [truncated_bitAt, truncated_bitAt, truncated_bitAt, decide_eq_true hm, Bool.true_and]

/-- A value's own low field spliced back changes nothing (R145). -/
theorem splice_low_self (a : Value) {n : Nat} (h : n ≤ a.w) : splice a (low a n) = a := by
  refine Value.eq_of_bits rfl fun i _ => ?_
  rw [splice_bitAt a _ h, getLsbD_low]
  split <;> simp_all

/-! ### Constructors (R100 to R102) -/

section
variable {st : State} {n : Nat} (hfits : st.config.fits n = true)
include hfits

/-- `zero` gives the value of n zero bits (R100). -/
theorem zero_answers (h1 : 1 ≤ n) : Answers (.zero n) st (.value ⟨n, 0#n⟩) := by
  have h : exec (.zero n) st = .next (respond st _) := exec_constructor rfl hfits
  rwa [require_of h1, show bv n 0 = 0#n from bv_natCast n 0] at h

theorem zero_fails (h0 : n = 0) : FailsWith (.zero n) st .rangeError := by
  have h : exec (.zero n) st = .next (respond st _) := exec_constructor rfl hfits
  rwa [require_of_not (by omega)] at h

/-- `from_integer` encodes an integer from -2^(n-1) up to the high end of its range (R101). -/
theorem fromInteger_answers {k : Int} (h1 : 1 ≤ n) (hlo : -2 ^ (n - 1) ≤ k)
    (hhi : k ≤ fromIntegerHigh st.config.band n) : Answers (.fromInteger k n) st (.value ⟨n, bv n k⟩) := by
  have h : exec (.fromInteger k n) st = .next (respond st _) := exec_constructor rfl hfits
  rwa [require_of h1, require_of ⟨hlo, hhi⟩] at h

theorem fromInteger_fails {k : Int} (hk : n = 0 ∨ k < -2 ^ (n - 1) ∨ fromIntegerHigh st.config.band n < k) :
    FailsWith (.fromInteger k n) st .rangeError := by
  have h : exec (.fromInteger k n) st = .next (respond st _) := exec_constructor rfl hfits
  by_cases h1 : 1 ≤ n
  · rwa [require_of h1, require_of_not (by omega)] at h
  · rwa [require_of_not h1] at h

/-- `from_bits` gives the bits of a sequence that fits (R102). -/
theorem fromBits_answers {seq : List Bool} (h1 : 1 ≤ n) (hlen : seq.length ≤ n) :
    Answers (.fromBits seq n) st (.value ⟨n, bitsOfSeq n seq⟩) := by
  have h : exec (.fromBits seq n) st = .next (respond st _) := exec_constructor rfl hfits
  rwa [require_of h1, require_of hlen] at h

theorem fromBits_fails {seq : List Bool} (hn : n = 0 ∨ n < seq.length) :
    FailsWith (.fromBits seq n) st .rangeError := by
  have h : exec (.fromBits seq n) st = .next (respond st _) := exec_constructor rfl hfits
  by_cases h1 : 1 ≤ n
  · rwa [require_of h1, require_of_not (by omega)] at h
  · rwa [require_of_not h1] at h

end

/-- The signed range lies inside the unsigned one. -/
theorem half_range_le (n : Nat) : (2 : Int) ^ (n - 1) ≤ 2 ^ n := pow_le_pow_right₀ (by norm_num) (Nat.sub_le n 1)

/-- What lies above the range of `from_integer`: everything from 2^n, and the band where it is rejected (R101). -/
theorem fromIntegerHigh_lt_iff (band : Band) (n : Nat) (k : Int) :
    fromIntegerHigh band n < k ↔ 2 ^ n ≤ k ∨ (band = .reject ∧ 2 ^ (n - 1) ≤ k) := by
  have hle := half_range_le n
  cases band <;> simp only [fromIntegerHigh, reduceCtorEq, true_and, false_and, or_false] <;> omega

/-- What lies below: the signed range under both settings, and the band where it is accepted. -/
theorem le_fromIntegerHigh {band : Band} {n : Nat} {k : Int}
    (h : k < 2 ^ (n - 1) ∨ (band = .accept ∧ k < 2 ^ n)) : k ≤ fromIntegerHigh band n := by
  have hle := half_range_le n
  refine Int.not_lt.mp fun hlt => ?_
  obtain hk | ⟨hband, hk⟩ := (fromIntegerHigh_lt_iff band n k).mp hlt
  · omega
  · simp only [hband, reduceCtorEq, false_and, or_false] at h
    omega

section
variable {st : State} {x : Value} (hx : Result.wf st.config (.value x) = true)
include hx

/-- The signed reading is in the range of `from_integer` under both settings, and gives the value back (R108). -/
theorem fromInteger_signed_answers : Answers (.fromInteger (signed x.b) x.w) st (.value x) := by
  obtain ⟨hwf, hfits⟩ := Bool.and_eq_true_iff.mp hx
  have hlo : -2 ^ (x.w - 1) ≤ signed x.b := signed_eq_toInt x.b ▸ x.b.le_toInt
  have hhi : signed x.b < 2 ^ (x.w - 1) := signed_eq_toInt x.b ▸ x.b.toInt_lt
  have h := fromInteger_answers hfits (of_decide_eq_true hwf) hlo (le_fromIntegerHigh (.inl hhi))
  rwa [bv_signed] at h

/-- The unsigned reading gives the value back when its sign bit is 0 or the band is accepted (R108). -/
theorem fromInteger_unsigned_answers (h : x.bitAt (x.w - 1) = false ∨ st.config.band = .accept) :
    Answers (.fromInteger (unsigned x.b) x.w) st (.value x) := by
  obtain ⟨hwf, hfits⟩ := Bool.and_eq_true_iff.mp hx
  have hlo : -2 ^ (x.w - 1) ≤ (unsigned x.b : Int) := by
    have hpos : (0 : Int) ≤ 2 ^ (x.w - 1) := by positivity
    omega
  have hhi : (unsigned x.b : Int) < 2 ^ (x.w - 1) ∨ (st.config.band = .accept ∧ (unsigned x.b : Int) < 2 ^ x.w) := by
    refine h.imp (fun hsign => ?_) (fun hband => ⟨hband, ?_⟩)
    · exact_mod_cast x.signBit_eq_false_iff.mp hsign
    · exact_mod_cast x.b.isLt
  have h := fromInteger_answers hfits (of_decide_eq_true hwf) hlo (le_fromIntegerHigh hhi)
  rwa [bv_unsigned] at h

/-- The unsigned reading of a value whose sign bit is 1 is in the band (R108). -/
theorem fromInteger_unsigned_fails (hsign : x.bitAt (x.w - 1) = true) (hband : st.config.band = .reject) :
    FailsWith (.fromInteger (unsigned x.b) x.w) st .rangeError := by
  obtain ⟨-, hfits⟩ := Bool.and_eq_true_iff.mp hx
  have hge : 2 ^ (x.w - 1) ≤ x.b.toNat :=
    Nat.not_lt.mp fun hlt => by simp [x.signBit_eq_false_iff.mpr hlt] at hsign
  have hhigh : fromIntegerHigh st.config.band x.w < unsigned x.b :=
    (fromIntegerHigh_lt_iff _ _ _).mpr (.inr ⟨hband, by exact_mod_cast hge⟩)
  exact fromInteger_fails hfits (.inr (.inr hhigh))

/-- The sequence of its bits gives the value back (R108). -/
theorem fromBits_bits_answers : Answers (.fromBits ((List.range x.w).map x.bitAt) x.w) st (.value x) := by
  obtain ⟨hwf, hfits⟩ := Bool.and_eq_true_iff.mp hx
  have h := fromBits_answers (seq := (List.range x.w).map x.bitAt) hfits (of_decide_eq_true hwf) (by simp)
  rwa [bitsOfSeq_bits] at h

end

/-! ### The binary text (R110) -/

/-- The character at place `p` of the binary text, counted from its end: every fifth one is a delimiter and the four below
it are the digits of a cluster. -/
def placeChar {w : Nat} (x : BitVec w) (p : Nat) : Char :=
  if p % 5 = 4 then Config.binDelim else bitChar (bitAt x (4 * (p / 5) + p % 5))

theorem placeChar_digit {w : Nat} (x : BitVec w) (i : Nat) : placeChar x (i + i / 4) = bitChar (bitAt x i) := by
  have hplace : 4 * ((i + i / 4) / 5) + (i + i / 4) % 5 = i := by omega
  rw [placeChar, if_neg (by omega), hplace]

theorem placeChar_delim {w : Nat} (x : BitVec w) (j : Nat) : placeChar x (5 * j + 4) = Config.binDelim :=
  if_pos (by omega)

/-- The digits of a cluster, or of its lower part, fill the places from 5g up. -/
theorem digitsDown_reverse {w : Nat} (x : BitVec w) (g : Nat) {len : Nat} (h : len ≤ 4) :
    (digitsDown x (4 * g) len).reverse = (List.range len).map fun r => placeChar x (5 * g + r) := by
  induction len with
  | zero => rfl
  | succ len ih =>
    have hplace : 5 * g + len = (4 * g + len) + (4 * g + len) / 4 := by omega
    rw [digitsDown, List.reverse_cons, ih (by omega), List.range_succ, List.map_append, List.map_singleton, hplace,
      placeChar_digit]

/-- A row of places splits at any place. -/
theorem map_range_add {α : Type} (f : Nat → α) (n k : Nat) :
    (List.range (n + k)).map f = (List.range n).map f ++ (List.range k).map fun r => f (n + r) := by
  rw [List.range_add, List.map_append, List.map_map]
  rfl

/-- The clusters below cluster g, each with the delimiter above it, fill the places below 5g. -/
theorem lowerClusters_reverse {w : Nat} (x : BitVec w) (g : Nat) :
    (lowerClusters x g).reverse = (List.range (5 * g)).map (placeChar x) := by
  induction g with
  | zero => rfl
  | succ g ih =>
    have hcluster : (fullCluster x g).reverse ++ [Config.binDelim] =
        (List.range 5).map fun r => placeChar x (5 * g + r) := by
      rw [fullCluster, digitsDown_reverse x g (Nat.le_refl 4), List.range_succ (n := 4), List.map_append,
        List.map_singleton, placeChar_delim]
    calc (lowerClusters x (g + 1)).reverse
        = (lowerClusters x g).reverse ++ ((fullCluster x g).reverse ++ [Config.binDelim]) := by
          simp [lowerClusters]
      _ = (List.range (5 * g)).map (placeChar x) ++ (List.range 5).map fun r => placeChar x (5 * g + r) := by
          rw [ih, hcluster]
      _ = (List.range (5 * (g + 1))).map (placeChar x) := by
          rw [Nat.mul_succ, map_range_add]

/-- The binary text of a value whose highest set bit is m, read from its end: m + 1 digits and m / 4 delimiters. -/
theorem binaryText_reverse {v : Value} {m : Nat} (hm : v.bitAt m = true) (habove : ∀ i, m < i → v.bitAt i = false) :
    (binaryText v.b).reverse = (List.range (m + 1 + m / 4)).map (placeChar v.b) := by
  obtain ⟨hne, hlog⟩ := Value.log2_of_highest hm habove
  have hlen : m + 1 + m / 4 = 5 * (m / 4) + (m - 4 * (m / 4) + 1) := by omega
  rw [binaryText, unsigned, if_neg hne, hlog, List.reverse_append, lowerClusters_reverse,
    digitsDown_reverse v.b _ (by omega), hlen, map_range_add _ (5 * (m / 4))]

/-! ### Comparisons across and within widths (R111, R112, 45_relational.md R211) -/

/-- A sized operation of two values of different widths fails, whatever the size is (42_arithmetic.md R152). -/
theorem binary_fails_of_width_ne {mk : Value → Value → Option Nat → Instr} (h : mk ∈ binaryValueOps ++ relationalOps)
    {st : State} {a b : Value} (ha : Result.wf st.config (.value a) = true)
    (hb : Result.wf st.config (.value b) = true) (hw : a.w ≠ b.w) (size : Option Nat) :
    FailsWith (mk a b size) st .widthMismatchError := by
  obtain ⟨body, e⟩ := exec_binary_form h
  rw [FailsWith, e, sizedBinary, require_of_not hw]
  exact answer_of_wf _ (operands_wf_iff.mpr ⟨ha, hb⟩)

section
variable {st : State} {a b : Value} (ha : Result.wf st.config (.value a) = true)
  (hb : Result.wf st.config (.value b) = true)
include ha hb

/-- `value_eq` answers whether the two values are the same (R111). -/
theorem valueEq_answers : Answers (.valueEq a b) st (.bool (decide (a = b))) := by
  have h : exec (.valueEq a b) st = .next (respond st _) := answer_of_wf _ (operands_wf_iff.mpr ⟨ha, hb⟩)
  rwa [unsigned, unsigned, decide_eq_decide.mpr Value.eq_iff_toNat.symm] at h

/-- `value_lt` compares the unsigned readings of values of equal width (R112). -/
theorem valueLt_answers (hw : a.w = b.w) : Answers (.valueLt a b) st (.bool (decide (a.b.toNat < b.b.toNat))) := by
  have h : exec (.valueLt a b) st = .next (respond st _) := answer_of_wf _ (operands_wf_iff.mpr ⟨ha, hb⟩)
  rwa [require_of hw] at h

theorem valueLt_fails (hw : a.w ≠ b.w) : FailsWith (.valueLt a b) st .widthMismatchError := by
  have h : exec (.valueLt a b) st = .next (respond st _) := answer_of_wf _ (operands_wf_iff.mpr ⟨ha, hb⟩)
  rwa [require_of_not hw] at h

end

/-- The low field at the full width reads as the value. -/
theorem unsigned_low_of_width_eq {v : Value} {n : Nat} (h : n = v.w) : unsigned (low v n) = v.b.toNat := by
  rw [h, unsigned_low, Value.lowUnsigned_width]

/-- At the full width `eq` compares the values (R201). -/
theorem sameBits_low_width {a b : Value} (hw : a.w = b.w) : sameBits (low a a.w) (low b a.w) = decide (a = b) := by
  have hbits : low a a.w = low b a.w ↔ a = b := by
    rw [← BitVec.toNat_inj, Value.eq_iff_toNat, ← unsigned_low_of_width_eq rfl, ← unsigned_low_of_width_eq hw]
    exact (and_iff_right hw).symm
  exact decide_eq_decide.mpr hbits

/-- At the full width `ult` compares the unsigned readings (R203). -/
theorem unsignedLess_low_width {a b : Value} (hw : a.w = b.w) :
    unsignedLess (low a a.w) (low b a.w) = decide (a.b.toNat < b.b.toNat) := by
  rw [unsignedLess, unsigned_low_of_width_eq rfl, unsigned_low_of_width_eq hw]

/-! ### Extensions (41_width_change.md R141, R142) -/

section
variable {st : State} {a : Value} {n : Nat} (ha : Result.wf st.config (.value a) = true)
  (hfits : st.config.fits n = true) (hlt : a.w < n)
include ha hfits hlt

/-- A zero extension to a larger width within WMAX succeeds. -/
theorem zeroExtend_answers : Answers (.zeroExtend a n) st (.value ⟨n, zext n a.b⟩) := by
  have h : exec (.zeroExtend a n) st = .next (respond st _) := exec_extension rfl ha hfits
  rwa [require_of hlt] at h

/-- A sign extension to a larger width within WMAX succeeds. -/
theorem signExtend_answers : Answers (.signExtend a n) st (.value ⟨n, sext n a.b⟩) := by
  have h : exec (.signExtend a n) st = .next (respond st _) := exec_extension rfl ha hfits
  rwa [require_of hlt] at h

end

/-- Zero extensions compose: the second reads what the first has kept (R145). -/
theorem zext_zext {w m : Nat} (h : w ≤ m) (n : Nat) (x : BitVec w) : zext n (zext m x) = zext n x := by
  rw [zext, unsigned_zext h, zext]

/-- Sign extensions compose (R145). -/
theorem sext_sext {w m : Nat} (h : w ≤ m) (n : Nat) (x : BitVec w) : sext n (sext m x) = sext n x := by
  rw [sext, signed_sext h, sext]

/-! ### The obligations -/

/-- Settles O20: the range of R101, cut at its high end by the setting. -/
theorem fromIntegerEncodesItsRange : Obligations.FromIntegerEncodesItsRange := by
  intro st k n hfits
  refine ⟨fun h0 => fromInteger_fails hfits (.inl h0), fun h1 => ⟨fun hlo hhi => ?_, fun hk => ?_⟩⟩
  · exact ⟨_, fromInteger_answers hfits h1 hlo (le_fromIntegerHigh hhi), rfl, unsigned_bv n k⟩
  · exact fromInteger_fails hfits (.inr (hk.imp_right (fromIntegerHigh_lt_iff _ n k).mpr))

/-- Settles O21: the bits of the sequence, and zeros from its end up. -/
theorem fromBitsPlacesTheSequenceAtTheLowEnd : Obligations.FromBitsPlacesTheSequenceAtTheLowEnd := by
  intro st seq n hfits
  refine ⟨fun h1 hlen => ⟨_, fromBits_answers hfits h1 hlen, rfl, fun i => ?_⟩, fromBits_fails hfits⟩
  rw [Value.bitAt, getLsbD_bitsOfSeq, List.getD_eq_getElem?_getD]
  by_cases hi : i < n
  · rw [decide_eq_true hi, Bool.true_and]
  · rw [List.getElem?_eq_none (by omega), Option.getD_none, Bool.and_false]

/-- Settles O23: both readings and the bits determine the value, and the unsigned reading is in the band exactly when
the sign bit is 1. -/
theorem conversionsInvertConstructors : Obligations.ConversionsInvertConstructors := by
  intro st x hwf hfits
  have hx : Result.wf st.config (.value x) = true := Bool.and_eq_true_iff.mpr ⟨hwf, hfits⟩
  exact ⟨⟨signed x.b, exec_valueFunction rfl hwf hfits, fromInteger_signed_answers hx⟩, fromBits_bits_answers hx,
    unsigned x.b, exec_valueFunction rfl hwf hfits, fromInteger_unsigned_answers hx, fromInteger_unsigned_fails hx⟩

/-- Settles O27: the text read from its end is one character per place, and place i + i/4 is that of digit i. -/
theorem binaryTextGroupsDigitsInFours : Obligations.BinaryTextGroupsDigitsInFours := by
  intro st a hwf hfits
  have htext : Answers (.asBinaryText a) st (.text (binaryText a.b)) := exec_valueFunction rfl hwf hfits
  refine ⟨fun hzero => ?_, fun m hm habove => ⟨_, htext, ?_, fun i hi => ?_, fun j hj => ?_⟩⟩
  · rwa [binaryText, unsigned, if_pos (Value.toNat_eq_zero hzero)] at htext
  · rw [← List.length_reverse, binaryText_reverse hm habove, List.length_map, List.length_range]
  · rw [binaryText_reverse hm habove, List.getElem?_map, List.getElem?_range (by omega), Option.map_some,
      placeChar_digit]
    rfl
  · rw [binaryText_reverse hm habove, List.getElem?_map, List.getElem?_range (by omega), Option.map_some,
      placeChar_delim]

/-- Settles O29: `value_eq` decides equality of values, `value_lt` compares behind the test of the widths. -/
theorem valueComparisons : Obligations.ValueComparisons := by
  intro st a b hwf
  obtain ⟨ha, hb⟩ := operands_wf_iff.mp hwf
  exact ⟨⟨_, valueEq_answers ha hb, decide_eq_true_iff.trans Value.eq_iff_bits⟩,
    fun hw => ⟨_, valueLt_answers ha hb hw, decide_eq_true_iff⟩, valueLt_fails ha hb⟩

/-- Settles O33: an extension keeps the reading the next one extends, a truncation the bits the next one keeps. -/
theorem widthChangesCompose : Obligations.WidthChangesCompose := by
  intro st x hwf hfits
  have hx : Result.wf st.config (.value x) = true := Bool.and_eq_true_iff.mpr ⟨hwf, hfits⟩
  refine ⟨fun m n hm hn hfitsn => ?_, fun m n h1 hn hm => ?_, fun n h1 hn => ?_⟩
  · have hfitsm := Config.fits_of_le hfitsn (Nat.le_of_lt hn)
    have hwide (y : BitVec m) : Result.wf st.config (.value ⟨m, y⟩) = true := value_wf (by omega) hfitsm y
    have hxn : x.w < n := hm.trans hn
    refine ⟨⟨_, _, zeroExtend_answers hx hfitsm hm, zeroExtend_answers (hwide _) hfitsn hn, ?_⟩,
      _, _, signExtend_answers hx hfitsm hm, signExtend_answers (hwide _) hfitsn hn, ?_⟩
    · rw [zext_zext (Nat.le_of_lt hm)]
      exact zeroExtend_answers hx hfitsn hxn
    · rw [sext_sext (Nat.le_of_lt hm)]
      exact signExtend_answers hx hfitsn hxn
  · have hm1 : 1 ≤ m := by omega
    refine ⟨_, _, truncate_answers hx hm1 hm, truncate_answers (narrow_wf hx hm1 hm _) h1 hn, ?_⟩
    rw [truncated_truncated x (Nat.le_of_lt hn)]
    exact truncate_answers hx h1 (hn.trans hm)
  · have h := spliceLow_answers hx (narrow_wf hx h1 hn (low x n)) (Nat.le_of_lt hn)
    rw [splice_low_self x (Nat.le_of_lt hn)] at h
    exact ⟨_, truncate_answers hx h1 hn, h⟩

/-- Settles O53: at the full width the low fields are the values; across widths the sized operations fail first of all. -/
theorem valueLevelAndSizedComparisonsAgree : Obligations.ValueLevelAndSizedComparisonsAgree := by
  intro st a b hwf
  obtain ⟨ha, hb⟩ := operands_wf_iff.mp hwf
  refine ⟨fun hw => ?_, fun hw => ⟨?_, valueLt_fails ha hb hw, fun mk hmk size => ?_⟩⟩
  · have hfull : LegalSize a.w none a.w := legalSize_none (of_decide_eq_true (Bool.and_eq_true_iff.mp ha).1)
    have heq : exec (.eq a b none) st = _ := exec_binary_of_legal rfl hwf hw hfull
    have hult : exec (.ult a b none) st = _ := exec_binary_of_legal rfl hwf hw hfull
    rw [heq, hult, sameBits_low_width hw, unsignedLess_low_width hw]
    exact ⟨valueEq_answers ha hb, valueLt_answers ha hb hw⟩
  · have hne : a ≠ b := fun h => hw (congrArg Value.w h)
    have h := valueEq_answers ha hb
    rwa [decide_eq_false hne] at h
  · exact binary_fails_of_width_ne (List.mem_append_right _ hmk) ha hb hw size

/-- Settles O19: the one precondition of R100 is n at least 1. -/
theorem zeroGivesTheZeroValue : Obligations.ZeroGivesTheZeroValue :=
  fun _ _ hfits => ⟨zero_answers hfits, zero_fails hfits⟩

/-- Settles O24: each of the three answers a well-formed value without a precondition. -/
theorem widthCopyAndHexTextAnswer : Obligations.WidthCopyAndHexTextAnswer :=
  fun _ _ hwf hfits =>
    ⟨exec_valueFunction rfl hwf hfits, exec_valueFunction rfl hwf hfits, exec_valueFunction rfl hwf hfits⟩

/-- Settles O25: the precondition of R105 is met inside the value and by no integer outside it. -/
theorem bitReadsOnlyInsideTheValue : Obligations.BitReadsOnlyInsideTheValue := by
  intro st a hwf hfits
  have hbit (k : Int) : exec (.bit a k) st = .next (respond st (require (decide (0 ≤ k ∧ k < a.w)) .indexError
      (returnBool (bitAt a.b k.toNat)))) := exec_valueFunction rfl hwf hfits
  refine ⟨fun i hi => ?_, fun k hk => ?_⟩
  · rw [hbit, require_of (by omega)]
    rfl
  · rw [hbit, require_of_not (by omega)]
    rfl

end Sys2Proof.Machine
end

section
/-! PROOFS. The statements of 41_width_change.md. -/

namespace Sys2Proof

/-- The signed reading of the low field at the full width is that of the value (00_scope.md R12). -/
theorem Value.lowSigned_width (v : Value) : v.lowSigned v.w = Machine.signed v.b := by
  rw [Value.lowSigned, Value.lowUnsigned_width]
  rfl

end Sys2Proof

namespace Sys2Proof.Machine

/-! ### Bits and readings of an extended bit-string (R141, R142) -/

theorem getLsbD_zext {m n : Nat} (x : BitVec m) {i : Nat} (hi : i < n) : (zext n x).getLsbD i = x.getLsbD i := by
  rw [zext_eq_setWidth, BitVec.getLsbD_setWidth, decide_eq_true hi, Bool.true_and]

theorem getLsbD_sext {m n : Nat} (x : BitVec m) {i : Nat} (hi : i < n) :
    (sext n x).getLsbD i = if i < m then x.getLsbD i else x.getLsbD (m - 1) := by
  rw [sext_eq_signExtend, BitVec.getLsbD_signExtend, decide_eq_true hi, Bool.true_and, BitVec.msb_eq_getLsbD_last]

/-- The low bits of a zero extension are the bit-string extended (R141). -/
theorem setWidth_zext {m n : Nat} (h : m ≤ n) (x : BitVec m) : (zext n x).setWidth m = x := by
  rw [zext_eq_setWidth, BitVec.setWidth_setWidth_of_le x h, BitVec.setWidth_eq]

/-- The low bits of a sign extension are the bit-string extended (R142). -/
theorem setWidth_sext {m n : Nat} (h : m ≤ n) (x : BitVec m) : (sext n x).setWidth m = x := by
  refine BitVec.eq_of_getLsbD_eq fun i hi => ?_
  rw [BitVec.getLsbD_setWidth, getLsbD_sext x (Nat.lt_of_lt_of_le hi h), if_pos hi, decide_eq_true hi, Bool.true_and]

/-- Sign extension raises the unsigned readings of negative bit-strings, the upper half of the range, all by the same
amount. -/
theorem unsigned_sext {m n : Nat} (h : m ≤ n) (x : BitVec m) :
    unsigned (sext n x) = unsigned x + if 2 ^ (m - 1) ≤ unsigned x then 2 ^ n - 2 ^ m else 0 := by
  rw [sext_eq_signExtend, unsigned, BitVec.toNat_signExtend, BitVec.toNat_setWidth_of_le h, BitVec.msb_eq_decide,
    unsigned]
  simp only [decide_eq_true_eq]

/-- Sign extension keeps the unsigned order: the bit-strings it raises are the larger ones. -/
theorem unsigned_sext_lt_iff {m n : Nat} (h : m ≤ n) (x y : BitVec m) :
    unsigned (sext n x) < unsigned (sext n y) ↔ unsigned x < unsigned y := by
  rw [unsigned_sext h, unsigned_sext h]
  split <;> split <;> omega

/-! ### What the low bits of a result depend on -/

/-- Integers congruent modulo 2^n have the same bit-string of width n. -/
theorem bv_of_modEq {n : Nat} {k l : Int} (h : k ≡ l [ZMOD 2 ^ n]) : bv n k = bv n l := by
  apply BitVec.eq_of_toNat_eq
  rw [bv_toNat, bv_toNat, h]

/-- The unsigned reading of the low bits is congruent to that of the whole. -/
theorem unsigned_setWidth_modEq {n : Nat} (A : BitVec n) (w : Nat) :
    (unsigned (A.setWidth w) : Int) ≡ unsigned A [ZMOD 2 ^ w] := by
  rw [unsigned, BitVec.toNat_setWidth]
  push_cast
  exact Int.mod_modEq _ _

/-- The low bits of the bit-string of an integer are its bit-string of the smaller width. -/
theorem setWidth_bv {w n : Nat} (h : w ≤ n) (k : Int) : (bv n k).setWidth w = bv w k := by
  have hdvd : (2 : Int) ^ w ∣ 2 ^ n := pow_dvd_pow 2 h
  have hcongr : (unsigned (bv n k) : Int) ≡ k [ZMOD 2 ^ w] := by
    rw [unsigned, unsigned_bv]
    exact (Int.mod_modEq k _).of_dvd hdvd
  calc (bv n k).setWidth w = bv w (unsigned ((bv n k).setWidth w)) := (bv_unsigned _).symm
    _ = bv w k := bv_of_modEq ((unsigned_setWidth_modEq _ w).trans hcongr)

/-- The logical right shift halves the unsigned reading (44_shift.md R192). -/
theorem shiftedRight_eq_bv {n : Nat} (A : BitVec n) : shiftedRight A = bv n (unsigned A / 2 : Nat) := by
  rw [← bv_unsigned (shiftedRight A), unsigned, shiftedRight, BitVec.toNat_ushiftRight, Nat.shiftRight_one, unsigned]

/-- The arithmetic right shift halves the signed reading, rounding down (R193). -/
theorem shiftedRightSigned_eq_bv {n : Nat} (A : BitVec n) : shiftedRightSigned A = bv n (signed A / 2) := by
  rw [← bv_signed (shiftedRightSigned A), signed_eq_toInt, shiftedRightSigned, BitVec.toInt_sshiftRight,
    Int.shiftRight_eq_div_pow, signed_eq_toInt]
  rfl

/-! ### The width changes (R140 to R144) -/

/-- What answering checks of an extension: its operand, and that its target is within WMAX. -/
theorem extension_wf_iff {c : Config} {a : Value} {n : Nat} :
    (Instr.zeroExtend a n).wf c = true ↔ Result.wf c (.value a) = true ∧ c.fits n = true := by
  simp [Instr.wf, Instr.operands, Instr.askedWidths, Result.wf]

section
variable {st : State} {a : Value} {n : Nat} (ha : Result.wf st.config (.value a) = true)
include ha

theorem zeroExtend_fails (hfits : st.config.fits n = true) (hle : n ≤ a.w) :
    FailsWith (.zeroExtend a n) st .directionError := by
  have h : exec (.zeroExtend a n) st = .next (respond st _) := exec_extension rfl ha hfits
  rwa [require_of_not (Nat.not_lt.mpr hle)] at h

theorem signExtend_fails (hfits : st.config.fits n = true) (hle : n ≤ a.w) :
    FailsWith (.signExtend a n) st .directionError := by
  have h : exec (.signExtend a n) st = .next (respond st _) := exec_extension rfl ha hfits
  rwa [require_of_not (Nat.not_lt.mpr hle)] at h

/-- A truncation that does not narrow fails, whatever its target is (R143). -/
theorem truncate_fails_of_le (hle : a.w ≤ n) : FailsWith (.truncate a n) st .directionError := by
  obtain ⟨hwf, hfits⟩ := Bool.and_eq_true_iff.mp ha
  have h : exec (.truncate a n) st = .next (respond st _) := exec_valueFunction rfl hwf hfits
  rwa [require_of_not (Nat.not_lt.mpr hle)] at h

/-- A truncation to width 0 narrows, and fails by its range (R143). -/
theorem truncate_zero_fails : FailsWith (.truncate a 0) st .rangeError := by
  obtain ⟨hwf, hfits⟩ := Bool.and_eq_true_iff.mp ha
  have hpos : 0 < a.w := of_decide_eq_true hwf
  have h : exec (.truncate a 0) st = .next (respond st _) := exec_valueFunction rfl hwf hfits
  rwa [require_of hpos, require_of_not (by omega)] at h

end

/-! ### Requests at two widths (46_laws.md R221, R222)

An operation at width w is compared with the same operation at a larger width n, on operands whose low w bits are its
operands. The laws about the two extensions differ only in what the operands at width n have beside their low bits. -/

/-- The wide request answers with a value whose truncation to width w the narrow request answers with. -/
def AgreesTruncated (st : State) (wide narrow : Instr) (w : Nat) : Prop :=
  ∃ z v : Value, Answers wide st (.value z) ∧ Answers (.truncate z w) st (.value v) ∧ Answers narrow st (.value v)

/-- The two requests agree truncated, or both fail by a zero divisor (R221 (b)). -/
def AgreesOrDividesByZero (st : State) (wide narrow : Instr) (w : Nat) : Prop :=
  AgreesTruncated st wide narrow w ∨
    (FailsWith wide st .divisionByZeroError ∧ FailsWith narrow st .divisionByZeroError)

theorem low_mk (w : Nat) (x : BitVec w) : low ⟨w, x⟩ w = x := low_width ⟨w, x⟩

theorem truncated_mk {w n : Nat} (h : w ≤ n) (z : BitVec n) : truncated ⟨n, z⟩ w = ⟨w, z.setWidth w⟩ := by
  rw [truncated, low, slice, ← BitVec.setWidth_eq_extractLsb' h]

theorem returnSpliced_mk {w : Nat} (x r : BitVec w) : returnSpliced ⟨w, x⟩ r = .ok (.value ⟨w, r⟩) := by
  rw [returnSpliced, splice_full ⟨w, x⟩ r]

section
variable {st : State} {w : Nat} (h1 : 1 ≤ w) (hw : st.config.fits w = true)
include h1 hw

/-- With the size omitted a binary operation goes on with all the bits of its operands (30_encoding.md R67). -/
theorem exec_binary_unsized {i : Instr} {x y : BitVec w} {body : (n : Nat) → BitVec n → BitVec n → Response}
    (e : exec i st = answer st [⟨w, x⟩, ⟨w, y⟩] [] (sizedBinary ⟨w, x⟩ ⟨w, y⟩ none body)) :
    exec i st = .next (respond st (body w x y)) := by
  have h := exec_binary_of_legal e (operands_wf_iff.mpr ⟨value_wf h1 hw x, value_wf h1 hw y⟩) rfl (legalSize_none h1)
  rwa [low_mk, low_mk] at h

/-- With the size omitted a unary operation goes on with all the bits of its operand. -/
theorem exec_unary_unsized {i : Instr} {x : BitVec w} {body : (n : Nat) → BitVec n → Response}
    (e : exec i st = answer st [⟨w, x⟩] [] (sizedUnary ⟨w, x⟩ none body)) :
    exec i st = .next (respond st (body w x)) := by
  have h := exec_unary_of_legal e (decide_eq_true h1) hw (legalSize_none h1)
  rwa [low_mk] at h

end

section
variable {st : State} {w n : Nat} (h1 : 1 ≤ w) (hlt : w < n) (hfits : st.config.fits n = true)
  {x y : BitVec w} {x' y' : BitVec n}
include h1 hlt hfits

/-- A wide result and the narrow result that is its low bits agree truncated. -/
theorem agreesTruncated_of_setWidth {wide narrow : Instr} {z : BitVec n} {v : BitVec w}
    (hwide : Answers wide st (.value ⟨n, z⟩)) (hnarrow : Answers narrow st (.value ⟨w, v⟩)) (hv : z.setWidth w = v) :
    AgreesTruncated st wide narrow w := by
  have ht := truncate_answers (value_wf (h1.trans hlt.le) hfits z) h1 hlt
  rw [truncated_mk hlt.le, hv] at ht
  exact ⟨_, _, hwide, ht, hnarrow⟩

/-- A binary operation agrees truncated when the low bits of what it computes at width n are what it computes at w. -/
theorem binary_agreesTruncated {mk : Value → Value → Option Nat → Instr}
    {f : (n : Nat) → BitVec n → BitVec n → BitVec n}
    (e : ∀ a b, exec (mk a b none) st = answer st [a, b] [] (sizedBinary a b none fun n A B =>
      returnSpliced a (f n A B)))
    (hf : (f n x' y').setWidth w = f w x y) :
    AgreesTruncated st (mk ⟨n, x'⟩ ⟨n, y'⟩ none) (mk ⟨w, x⟩ ⟨w, y⟩ none) w := by
  have hnarrow := exec_binary_unsized h1 (Config.fits_of_le hfits hlt.le) (e ⟨w, x⟩ ⟨w, y⟩)
  have hwide := exec_binary_unsized (h1.trans hlt.le) hfits (e ⟨n, x'⟩ ⟨n, y'⟩)
  rw [returnSpliced_mk] at hnarrow hwide
  exact agreesTruncated_of_setWidth h1 hlt hfits hwide hnarrow hf

/-- A unary operation likewise. -/
theorem unary_agreesTruncated {mk : Value → Option Nat → Instr} {f : (n : Nat) → BitVec n → BitVec n}
    (e : ∀ a, exec (mk a none) st = answer st [a] [] (sizedUnary a none fun n A => returnSpliced a (f n A)))
    (hf : (f n x').setWidth w = f w x) :
    AgreesTruncated st (mk ⟨n, x'⟩ none) (mk ⟨w, x⟩ none) w := by
  have hnarrow := exec_unary_unsized h1 (Config.fits_of_le hfits hlt.le) (e ⟨w, x⟩)
  have hwide := exec_unary_unsized (h1.trans hlt.le) hfits (e ⟨n, x'⟩)
  rw [returnSpliced_mk] at hnarrow hwide
  exact agreesTruncated_of_setWidth h1 hlt hfits hwide hnarrow hf

/-- A division or remainder of readings that are the same at both widths agrees truncated, or fails at both widths by a
zero divisor. -/
theorem division_agreesTruncated {mk : Value → Value → Option Nat → Instr} {α : Type}
    {read : (n : Nat) → BitVec n → α} {g : α → α → Int}
    (e : ∀ a b, exec (mk a b none) st = answer st [a, b] [] (sizedBinary a b none fun n A B =>
      requireDivisor B (returnSpliced a (bv n (g (read n A) (read n B))))))
    (hx : read n x' = read w x) (hy : read n y' = read w y) (hzero : unsigned y' = 0 ↔ unsigned y = 0) :
    AgreesOrDividesByZero st (mk ⟨n, x'⟩ ⟨n, y'⟩ none) (mk ⟨w, x⟩ ⟨w, y⟩ none) w := by
  have hnarrow := exec_binary_unsized h1 (Config.fits_of_le hfits hlt.le) (e ⟨w, x⟩ ⟨w, y⟩)
  have hwide := exec_binary_unsized (h1.trans hlt.le) hfits (e ⟨n, x'⟩ ⟨n, y'⟩)
  by_cases h0 : unsigned y = 0
  · rw [requireDivisor_of_eq h0] at hnarrow
    rw [requireDivisor_of_eq (hzero.mpr h0)] at hwide
    exact .inr ⟨hwide, hnarrow⟩
  · rw [requireDivisor_of_ne h0, returnSpliced_mk] at hnarrow
    rw [requireDivisor_of_ne (mt hzero.mp h0), returnSpliced_mk, hx, hy] at hwide
    exact .inl (agreesTruncated_of_setWidth h1 hlt hfits hwide hnarrow (setWidth_bv hlt.le _))

/-- A comparison whose test is the same at both widths is unchanged. -/
theorem relational_eq_narrow {mk : Value → Value → Option Nat → Instr} {test : (n : Nat) → BitVec n → BitVec n → Bool}
    (e : ∀ a b, exec (mk a b none) st = answer st [a, b] [] (sizedBinary a b none fun n A B => returnBool (test n A B)))
    (htest : test n x' y' = test w x y) :
    exec (mk ⟨n, x'⟩ ⟨n, y'⟩ none) st = exec (mk ⟨w, x⟩ ⟨w, y⟩ none) st := by
  rw [exec_binary_unsized h1 (Config.fits_of_le hfits hlt.le) (e ⟨w, x⟩ ⟨w, y⟩),
    exec_binary_unsized (h1.trans hlt.le) hfits (e ⟨n, x'⟩ ⟨n, y'⟩), htest]

/-- Equality and the unsigned comparisons are unchanged when equality of the operands and their unsigned order are. -/
theorem unsignedRelational_eq_narrow (heq : x' = y' ↔ x = y)
    (hless : unsigned x' < unsigned y' ↔ unsigned x < unsigned y)
    (hmore : unsigned y' < unsigned x' ↔ unsigned y < unsigned x) :
    ∀ mk ∈ ([.eq, .neq, .ult, .ule, .ugt, .uge] : List (Value → Value → Option Nat → Instr)),
      exec (mk ⟨n, x'⟩ ⟨n, y'⟩ none) st = exec (mk ⟨w, x⟩ ⟨w, y⟩ none) st := by
  have hsame : sameBits x' y' = sameBits x y := decide_eq_decide.mpr heq
  simp only [List.forall_mem_cons, List.not_mem_nil, false_imp_iff, implies_true, and_true]
  refine ⟨?eq, ?neq, ?ult, ?ule, ?ugt, ?uge⟩ <;> refine relational_eq_narrow h1 hlt hfits (fun _ _ => rfl) ?_
  case eq => exact hsame
  case neq => exact congrArg (!·) hsame
  case ult => exact decide_eq_decide.mpr hless
  case ule => exact decide_eq_decide.mpr (le_iff_le_iff_lt_iff_lt.mpr hmore)
  case ugt => exact decide_eq_decide.mpr hmore
  case uge => exact decide_eq_decide.mpr (le_iff_le_iff_lt_iff_lt.mpr hless)

/-- The signed comparisons are unchanged when the signed readings of the operands are. -/
theorem signedRelational_eq_narrow (hx : signed x' = signed x) (hy : signed y' = signed y) :
    ∀ mk ∈ ([.slt, .sle, .sgt, .sge] : List (Value → Value → Option Nat → Instr)),
      exec (mk ⟨n, x'⟩ ⟨n, y'⟩ none) st = exec (mk ⟨w, x⟩ ⟨w, y⟩ none) st := by
  simp only [List.forall_mem_cons, List.not_mem_nil, false_imp_iff, implies_true, and_true]
  refine ⟨?slt, ?sle, ?sgt, ?sge⟩ <;> refine relational_eq_narrow h1 hlt hfits (fun _ _ => rfl) ?_
  case slt | sgt => rw [signedLess, hx, hy, signedLess]
  case sle | sge => rw [signedLessEq, hx, hy, signedLessEq]

/-- The low bits of these unary operations depend on the low bits of the operand only. -/
theorem lowBits_unary_agreesTruncated (hx : x'.setWidth w = x) :
    ∀ mk ∈ ([.bitNot, .shiftLeft] : List (Value → Option Nat → Instr)),
      AgreesTruncated st (mk ⟨n, x'⟩ none) (mk ⟨w, x⟩ none) w := by
  subst hx
  simp only [List.forall_mem_cons, List.not_mem_nil, false_imp_iff, implies_true, and_true]
  exact ⟨unary_agreesTruncated h1 hlt hfits (fun _ => rfl) (BitVec.setWidth_not hlt.le),
    unary_agreesTruncated h1 hlt hfits (fun _ => rfl) (BitVec.setWidth_shiftLeft_of_le hlt.le)⟩

/-- The low bits of these binary operations depend on the low bits of the operands only. -/
theorem lowBits_binary_agreesTruncated (hx : x'.setWidth w = x) (hy : y'.setWidth w = y) :
    ∀ mk ∈ ([.add, .sub, .mul, .bitAnd, .bitOr, .bitXor] : List (Value → Value → Option Nat → Instr)),
      AgreesTruncated st (mk ⟨n, x'⟩ ⟨n, y'⟩ none) (mk ⟨w, x⟩ ⟨w, y⟩ none) w := by
  subst hx hy
  have hu := (unsigned_setWidth_modEq x' w).symm
  have hv := (unsigned_setWidth_modEq y' w).symm
  simp only [List.forall_mem_cons, List.not_mem_nil, false_imp_iff, implies_true, and_true]
  refine ⟨?add, ?sub, ?mul, ?and, ?or, ?xor⟩ <;> refine binary_agreesTruncated h1 hlt hfits (fun _ _ => rfl) ?_
  case add => exact (setWidth_bv hlt.le _).trans (bv_of_modEq (hu.add hv))
  case sub => exact (setWidth_bv hlt.le _).trans (bv_of_modEq (hu.sub hv))
  case mul => exact (setWidth_bv hlt.le _).trans (bv_of_modEq (hu.mul hv))
  case and => exact BitVec.setWidth_and
  case or => exact BitVec.setWidth_or
  case xor => exact BitVec.setWidth_xor

end

/-! ### What the extensions keep beside the low bits -/

section
variable {w n : Nat} (h : w ≤ n) (x y : BitVec w)
include h

theorem zext_inj : zext n x = zext n y ↔ x = y :=
  ⟨fun e => by rw [← setWidth_zext h x, e, setWidth_zext h], congrArg _⟩

theorem sext_inj : sext n x = sext n y ↔ x = y :=
  ⟨fun e => by rw [← setWidth_sext h x, e, setWidth_sext h], congrArg _⟩

/-- The divisor a sign extension gives is zero when the divisor extended is. -/
theorem unsigned_sext_eq_zero_iff : unsigned (sext n y) = 0 ↔ unsigned y = 0 := by
  have hpos := Nat.two_pow_pos (w - 1)
  rw [unsigned_sext h]
  split <;> omega

/-- Halving the signed reading is the same at both widths (R193). -/
theorem setWidth_shiftedRightSigned_sext : (shiftedRightSigned (sext n x)).setWidth w = shiftedRightSigned x := by
  rw [shiftedRightSigned_eq_bv, signed_sext h, setWidth_bv h, shiftedRightSigned_eq_bv]

/-- Halving the unsigned reading is the same at both widths (R192). -/
theorem setWidth_shiftedRight_zext : (shiftedRight (zext n x)).setWidth w = shiftedRight x := by
  rw [shiftedRight_eq_bv, unsigned_zext h, setWidth_bv h, shiftedRight_eq_bv]

end

section
variable {st : State} {w n : Nat} (h1 : 1 ≤ w) (hlt : w < n) (hfits : st.config.fits n = true) (x y : BitVec w)
include h1 hlt hfits

/-- Signed division and remainder read the sign-extended operands as the operands (R221 (b)). -/
theorem signedDivision_agreesTruncated :
    ∀ mk ∈ ([.sdiv, .srem] : List (Value → Value → Option Nat → Instr)),
      AgreesOrDividesByZero st (mk ⟨n, sext n x⟩ ⟨n, sext n y⟩ none) (mk ⟨w, x⟩ ⟨w, y⟩ none) w := by
  have hx := signed_sext hlt.le x
  have hy := signed_sext hlt.le y
  have hzero := unsigned_sext_eq_zero_iff hlt.le y
  simp only [List.forall_mem_cons, List.not_mem_nil, false_imp_iff, implies_true, and_true]
  exact ⟨division_agreesTruncated h1 hlt hfits (read := fun _ A => signed A) (g := tdiv) (fun _ _ => rfl) hx hy hzero,
    division_agreesTruncated h1 hlt hfits (read := fun _ A => signed A) (g := trem) (fun _ _ => rfl) hx hy hzero⟩

/-- Unsigned division and remainder read the zero-extended operands as the operands (R222). -/
theorem unsignedDivision_agreesTruncated :
    ∀ mk ∈ ([.udiv, .urem] : List (Value → Value → Option Nat → Instr)),
      AgreesOrDividesByZero st (mk ⟨n, zext n x⟩ ⟨n, zext n y⟩ none) (mk ⟨w, x⟩ ⟨w, y⟩ none) w := by
  have hx := unsigned_zext hlt.le x
  have hy := unsigned_zext hlt.le y
  have hzero : unsigned (zext n y) = 0 ↔ unsigned y = 0 := by rw [hy]
  simp only [List.forall_mem_cons, List.not_mem_nil, false_imp_iff, implies_true, and_true]
  exact ⟨division_agreesTruncated h1 hlt hfits (read := fun _ A => unsigned A) (g := fun p q => (p / q : Nat))
      (fun _ _ => rfl) hx hy hzero,
    division_agreesTruncated h1 hlt hfits (read := fun _ A => unsigned A) (g := fun p q => (p % q : Nat))
      (fun _ _ => rfl) hx hy hzero⟩

/-- Every comparison answers of the sign-extended operands what it answers of the operands (R221 (c)). -/
theorem relational_sext :
    ∀ mk ∈ relationalOps, exec (mk ⟨n, sext n x⟩ ⟨n, sext n y⟩ none) st = exec (mk ⟨w, x⟩ ⟨w, y⟩ none) st := by
  have hunsigned := unsignedRelational_eq_narrow h1 hlt hfits (sext_inj hlt.le x y)
    (unsigned_sext_lt_iff hlt.le x y) (unsigned_sext_lt_iff hlt.le y x)
  have hsigned := signedRelational_eq_narrow h1 hlt hfits (signed_sext hlt.le x) (signed_sext hlt.le y)
  exact List.forall_mem_append.mpr ⟨hunsigned, hsigned⟩

/-- The comparisons without a sign answer of the zero-extended operands what they answer of the operands (R222). -/
theorem unsignedRelational_zext :
    ∀ mk ∈ ([.eq, .neq, .ult, .ule, .ugt, .uge] : List (Value → Value → Option Nat → Instr)),
      exec (mk ⟨n, zext n x⟩ ⟨n, zext n y⟩ none) st = exec (mk ⟨w, x⟩ ⟨w, y⟩ none) st := by
  have hx := unsigned_zext hlt.le x
  have hy := unsigned_zext hlt.le y
  exact unsignedRelational_eq_narrow h1 hlt hfits (zext_inj hlt.le x y) (by rw [hx, hy]) (by rw [hx, hy])

/-- The unary operations that sign extension is invariant for (R221 (a)). -/
theorem unary_sext_agreesTruncated :
    ∀ mk ∈ ([.bitNot, .shiftLeft, .arithmeticShiftRight] : List (Value → Option Nat → Instr)),
      AgreesTruncated st (mk ⟨n, sext n x⟩ none) (mk ⟨w, x⟩ none) w := by
  have hlow := lowBits_unary_agreesTruncated h1 hlt hfits (setWidth_sext hlt.le x)
  have hshift : AgreesTruncated st (.arithmeticShiftRight ⟨n, sext n x⟩ none) (.arithmeticShiftRight ⟨w, x⟩ none) w :=
    unary_agreesTruncated h1 hlt hfits (fun _ => rfl) (setWidth_shiftedRightSigned_sext hlt.le x)
  exact List.forall_mem_append.mpr ⟨hlow, List.forall_mem_singleton.mpr hshift⟩

/-- The unary operations that zero extension is invariant for (R222). -/
theorem unary_zext_agreesTruncated :
    ∀ mk ∈ ([.bitNot, .shiftLeft, .logicalShiftRight] : List (Value → Option Nat → Instr)),
      AgreesTruncated st (mk ⟨n, zext n x⟩ none) (mk ⟨w, x⟩ none) w := by
  have hlow := lowBits_unary_agreesTruncated h1 hlt hfits (setWidth_zext hlt.le x)
  have hshift : AgreesTruncated st (.logicalShiftRight ⟨n, zext n x⟩ none) (.logicalShiftRight ⟨w, x⟩ none) w :=
    unary_agreesTruncated h1 hlt hfits (fun _ => rfl) (setWidth_shiftedRight_zext hlt.le x)
  exact List.forall_mem_append.mpr ⟨hlow, List.forall_mem_singleton.mpr hshift⟩

end

/-! ### The obligations -/

/-- Settles O30: the bits and the reading each extension keeps, and the precondition both have. -/
theorem extensionsWidenStrictly : Obligations.ExtensionsWidenStrictly := by
  intro st a n hwf
  obtain ⟨ha, hfits⟩ := extension_wf_iff.mp hwf
  refine ⟨fun hlt => ⟨⟨_, zeroExtend_answers ha hfits hlt, rfl, fun i hi => ?_, ?_⟩,
    _, signExtend_answers ha hfits hlt, rfl, fun i hi => getLsbD_sext a.b hi, ?_⟩,
    fun hle => ⟨zeroExtend_fails ha hfits hle, signExtend_fails ha hfits hle⟩⟩
  · refine (getLsbD_zext a.b hi).trans ?_
    split
    · rfl
    · exact a.bitAt_of_ge (by omega)
  · rw [Value.lowUnsigned_width ⟨n, zext n a.b⟩, a.lowUnsigned_width]
    exact unsigned_zext hlt.le a.b
  · rw [Value.lowSigned_width ⟨n, sext n a.b⟩, a.lowSigned_width]
    exact signed_sext hlt.le a.b

/-- Settles O31: the value kept is the low field, and each precondition of R143 fails by its own kind. -/
theorem truncateKeepsTheLowBits : Obligations.TruncateKeepsTheLowBits := by
  intro st a n hwf hfits
  have ha : Result.wf st.config (.value a) = true := Bool.and_eq_true_iff.mpr ⟨hwf, hfits⟩
  refine ⟨fun h1 hlt => ⟨_, truncate_answers ha h1 hlt, rfl, fun i hi => ?_, unsigned_low a n⟩,
    truncate_fails_of_le ha, ?_⟩
  · rw [truncated_bitAt, decide_eq_true hi, Bool.true_and]
  · rintro rfl
    exact truncate_zero_fails ha

/-- Settles O54: the low bits of a sign extension are the operand, and it keeps the signed reading and both orders; the
counterexamples are run. -/
theorem signExtensionInvariance : Obligations.SignExtensionInvariance := by
  refine ⟨fun st ⟨w, x⟩ ⟨wy, y⟩ n hwf hw hlt hfits => ?_, ⟨rfl, rfl, rfl, rfl⟩, ⟨rfl, rfl, rfl⟩, ⟨rfl, rfl, rfl⟩,
    rfl, rfl, rfl⟩
  obtain rfl : w = wy := hw
  obtain ⟨hx, hy⟩ := operands_wf_iff.mp hwf
  have h1 : 1 ≤ w := of_decide_eq_true (Bool.and_eq_true_iff.mp hx).1
  exact ⟨_, _, signExtend_answers hx hfits hlt, signExtend_answers hy hfits hlt,
    lowBits_binary_agreesTruncated h1 hlt hfits (setWidth_sext hlt.le x) (setWidth_sext hlt.le y),
    signedDivision_agreesTruncated h1 hlt hfits x y, unary_sext_agreesTruncated h1 hlt hfits x,
    relational_sext h1 hlt hfits x y⟩

/-- -4 and 3 at width 3, and 4 and 3 at width 4: the quotients -1 and 1 and the remainders -1 and 1 differ modulo 8. -/
theorem zeroExtension_changes_signedDivision :
    ∀ mk ∈ ([.sdiv, .srem] : List (Value → Value → Option Nat → Instr)), ∃ x y x' y' z v v' : Value,
      Answers (.zeroExtend x x'.w) .reset (.value x') ∧ Answers (.zeroExtend y x'.w) .reset (.value y') ∧
        Answers (mk x' y' none) .reset (.value z) ∧ Answers (.truncate z x.w) .reset (.value v) ∧
        Answers (mk x y none) .reset (.value v') ∧ v ≠ v' := by
  intro mk hmk
  refine ⟨⟨3, 0b100#3⟩, ⟨3, 0b011#3⟩, ⟨4, 0b0100#4⟩, ⟨4, 0b0011#4⟩, ⟨4, 0b0001#4⟩, ⟨3, 0b001#3⟩, ⟨3, 0b111#3⟩,
    rfl, rfl, ?_, rfl, ?_, by decide⟩
  all_goals
    simp only [List.mem_cons, List.not_mem_nil, or_false] at hmk
    rcases hmk with rfl | rfl <;> rfl

/-- -1 and 0 at width 1, and 1 and 0 at width 2: every signed comparison answers the two pairs differently. -/
theorem zeroExtension_changes_signedComparisons :
    ∀ mk ∈ ([.slt, .sle, .sgt, .sge] : List (Value → Value → Option Nat → Instr)), ∃ (x y x' y' : Value) (e e' : Bool),
      Answers (.zeroExtend x x'.w) .reset (.value x') ∧ Answers (.zeroExtend y x'.w) .reset (.value y') ∧
        Answers (mk x' y' none) .reset (.bool e) ∧ Answers (mk x y none) .reset (.bool e') ∧ e ≠ e' := by
  intro mk hmk
  simp only [List.mem_cons, List.not_mem_nil, or_false] at hmk
  refine ⟨⟨1, 1#1⟩, ⟨1, 0#1⟩, ⟨2, 0b01#2⟩, ⟨2, 0b00#2⟩, ?_⟩
  rcases hmk with rfl | rfl | rfl | rfl
  · exact ⟨false, true, rfl, rfl, rfl, rfl, by decide⟩
  · exact ⟨false, true, rfl, rfl, rfl, rfl, by decide⟩
  · exact ⟨true, false, rfl, rfl, rfl, rfl, by decide⟩
  · exact ⟨true, false, rfl, rfl, rfl, rfl, by decide⟩

/-- Settles O55: the low bits of a zero extension are the operand, and it keeps the unsigned reading; what reads the sign
of the extended operand differs. -/
theorem zeroExtensionInvariance : Obligations.ZeroExtensionInvariance := by
  refine ⟨fun st ⟨w, x⟩ ⟨wy, y⟩ n hwf hw hlt hfits => ?_, zeroExtension_changes_signedDivision,
    ⟨⟨1, 1#1⟩, ⟨2, 0b01#2⟩, ⟨2, 0b00#2⟩, ⟨1, 0#1⟩, ⟨1, 1#1⟩, rfl, rfl, rfl, rfl, by decide⟩,
    zeroExtension_changes_signedComparisons⟩
  obtain rfl : w = wy := hw
  obtain ⟨hx, hy⟩ := operands_wf_iff.mp hwf
  have h1 : 1 ≤ w := of_decide_eq_true (Bool.and_eq_true_iff.mp hx).1
  exact ⟨_, _, zeroExtend_answers hx hfits hlt, zeroExtend_answers hy hfits hlt,
    lowBits_binary_agreesTruncated h1 hlt hfits (setWidth_zext hlt.le x) (setWidth_zext hlt.le y),
    unsignedDivision_agreesTruncated h1 hlt hfits x y, unary_zext_agreesTruncated h1 hlt hfits x,
    unsignedRelational_zext h1 hlt hfits x y⟩

end Sys2Proof.Machine
end

section
/-! PROOFS. The statements of 42_arithmetic.md, and those of 43_bitwise.md and 44_shift.md on the same sized fields. -/

namespace Sys2Proof

/-! ### The signed reading of a low field (00_scope.md R12) -/

section
variable (v : Value) {n : Nat} (h1 : 1 ≤ n)
include h1

theorem Value.le_lowSigned : -2 ^ (n - 1) ≤ v.lowSigned n := by
  rw [← Machine.signed_low v h1, Machine.signed_eq_toInt]
  exact BitVec.le_toInt _

theorem Value.lowSigned_lt : v.lowSigned n < 2 ^ (n - 1) := by
  rw [← Machine.signed_low v h1, Machine.signed_eq_toInt]
  exact BitVec.toInt_lt

theorem Value.lowSigned_eq_zero_iff : v.lowSigned n = 0 ↔ v.lowUnsigned n = 0 := by
  rw [← Machine.signed_low v h1, ← Machine.unsigned_low v n, Machine.signed_eq_toInt, Machine.unsigned,
    ← BitVec.toInt_zero (w := n), BitVec.toInt_inj, ← BitVec.toNat_inj, BitVec.toNat_zero]

end

end Sys2Proof

namespace Sys2Proof.Machine

/-! ### Low fields and splices (R152, R153) -/

/-- A low field is fixed by its bits. -/
theorem low_congr {a b : Value} {n : Nat} (h : ∀ i, i < n → a.bitAt i = b.bitAt i) : low a n = low b n := by
  refine BitVec.eq_of_getLsbD_eq fun i hi => ?_
  rw [getLsbD_low, getLsbD_low, h i hi]

/-- A low field is the bit-string of its unsigned reading. -/
theorem bv_lowUnsigned (a : Value) (n : Nat) : bv n (a.lowUnsigned n) = low a n := by
  rw [← unsigned_low, bv_unsigned]

theorem splice_bitAt_of_lt (x : Value) {m : Nat} (r : BitVec m) (h : m ≤ x.w) {i : Nat} (hi : i < m) :
    (splice x r).bitAt i = r.getLsbD i := by
  rw [splice_bitAt x r h, if_pos hi]

theorem getLsbD_low_of_lt (a : Value) {n i : Nat} (hi : i < n) : (low a n).getLsbD i = a.bitAt i := by
  rw [getLsbD_low, decide_eq_true hi, Bool.true_and]

theorem low_splice (x : Value) {m : Nat} (r : BitVec m) (h : m ≤ x.w) : low (splice x r) m = r :=
  BitVec.eq_of_toNat_eq ((unsigned_low _ m).trans (splice_lowUnsigned x r h))

/-- The low field of a spliced `bv_n(k)` reads unsigned as k modulo 2^n. -/
theorem splice_bv_natCast_lowUnsigned (x : Value) {n : Nat} (h : n ≤ x.w) (k : Nat) :
    (splice x (bv n k)).lowUnsigned n = k % 2 ^ n := by
  exact_mod_cast splice_bv_lowUnsigned x h k

/-- The low field of a spliced `bv_n(k)` reads signed as k, for k of the signed range. -/
theorem splice_bv_lowSigned (x : Value) {n : Nat} {k : Int} (h1 : 1 ≤ n) (h : n ≤ x.w) (hlo : -2 ^ (n - 1) ≤ k)
    (hhi : k < 2 ^ (n - 1)) : (splice x (bv n k)).lowSigned n = k := by
  rw [← signed_low _ h1, low_splice x _ h, signed_eq_toInt]
  exact BitVec.toInt_ofInt_eq_self h1 hlo hhi

/-! ### Validation (R152) -/

theorem LegalSize.one_le {w n : Nat} {size : Option Nat} (h : LegalSize w size n) : 1 ≤ n := h.2.1

theorem LegalSize.le_width {w n : Nat} {size : Option Nat} (h : LegalSize w size n) : n ≤ w := h.2.2

theorem requireSize_of_gt {w n : Nat} (h : w < n) (body : Nat → Response) :
    requireSize w (some n) body = .failure .widthMismatchError :=
  require_of_not (Nat.not_le.mpr h) _ _

theorem requireSize_zero (w : Nat) (body : Nat → Response) : requireSize w (some 0) body = .failure .rangeError :=
  (require_of (Nat.zero_le w) _ _).trans (require_of_not (Nat.not_succ_le_zero 0) _ _)

/-- With equal widths a binary sized operation fails as its size test does, before it looks at the fields. -/
theorem binary_fails_of_size {mk : Value → Value → Option Nat → Instr} (h : mk ∈ binaryValueOps ++ relationalOps)
    {st : State} {a b : Value} {size : Option Nat} {k : FailureKind} (ha : Result.wf st.config (.value a) = true)
    (hb : Result.wf st.config (.value b) = true) (hw : a.w = b.w)
    (hk : ∀ body, requireSize a.w size body = .failure k) : FailsWith (mk a b size) st k := by
  obtain ⟨body, e⟩ := exec_binary_form h
  rw [FailsWith, e, sizedBinary, require_of hw, hk]
  exact answer_of_wf _ (operands_wf_iff.mpr ⟨ha, hb⟩)

/-- A unary sized operation likewise. -/
theorem unary_fails_of_size {mk : Value → Option Nat → Instr} (h : mk ∈ unarySizedOps) {st : State} {a : Value}
    {size : Option Nat} {k : FailureKind} (ha : Result.wf st.config (.value a) = true)
    (hk : ∀ body, requireSize a.w size body = .failure k) : FailsWith (mk a size) st k := by
  obtain ⟨f, e⟩ := exec_unary_form h
  rw [FailsWith, e, sizedUnary, hk]
  exact answer_of_wf _ (operand_wf_iff.mpr ha)

/-! ### What an answer shows, and what it depends on -/

/-- A request that succeeds was answered with the response it shows. -/
theorem eq_ok_of_answer_eq_succeed {st : State} {ops : List Value} {asked : List Nat} {r : Response} {res : Result}
    (h : answer st ops asked r = .next (succeed st res)) : r = .ok res :=
  (next_respond_inj (congrArg Host.Outcome.next (answer_eq_next h))).symm

/-- A request succeeds with one result. -/
theorem Answers.unique {i : Instr} {st : State} {r r' : Result} (h : Answers i st r) (h' : Answers i st r') : r = r' :=
  Response.ok.inj (next_respond_inj (h.symm.trans h'))

/-- A binary sized operation that succeeds had operands of equal widths, and its result is that of the rest of its rule. -/
theorem sizedBinary_eq_ok {a b : Value} {size : Option Nat} {n : Nat} {res : Result}
    {body : (n : Nat) → BitVec n → BitVec n → Response} (hs : LegalSize a.w size n)
    (h : sizedBinary a b size body = .ok res) : body n (low a n) (low b n) = .ok res := by
  have hw : a.w = b.w := of_decide_eq_true (require_eq_ok.mp h).1
  rwa [sizedBinary_of_legal hw hs] at h

/-- Answering looks at the widths of the operands only. -/
theorem answer_congr {st : State} {a a' b b' : Value} (ha : a.w = a'.w) (hb : b.w = b'.w) (r : Response) :
    answer st [a, b] [] r = answer st [a', b'] [] r := by
  obtain ⟨w, x⟩ := a
  obtain ⟨w', x'⟩ := a'
  obtain ⟨u, y⟩ := b
  obtain ⟨u', y'⟩ := b'
  obtain rfl : w = w' := ha
  obtain rfl : u = u' := hb
  rfl

/-- A binary sized operation looks at the widths of its operands and at their low fields only. -/
theorem sizedBinary_congr {a a' b b' : Value} {size : Option Nat} {n : Nat} (hs : LegalSize a.w size n)
    (ha : a.w = a'.w) (hb : b.w = b'.w) (hla : low a n = low a' n) (hlb : low b n = low b' n)
    (body : (n : Nat) → BitVec n → BitVec n → Response) : sizedBinary a b size body = sizedBinary a' b' size body := by
  by_cases hw : a.w = b.w
  · rw [sizedBinary_of_legal hw hs, sizedBinary_of_legal (ha.symm.trans (hw.trans hb)) (ha ▸ hs), hla, hlb]
  · have hw' : a'.w ≠ b'.w := fun h => hw (ha.trans (h.trans hb.symm))
    rw [sizedBinary, sizedBinary, require_of_not hw, require_of_not hw']

/-! ### Division rounded toward zero (R160, decision D11) -/

/-- A remainder that is not zero has the sign of the dividend. -/
theorem tmod_eq_zero_or_pos_iff (x y : Int) : Int.tmod x y = 0 ∨ (0 < Int.tmod x y ↔ 0 < x) := by
  have hsign := Int.sign_tmod x y
  split at hsign
  · exact .inl (Int.sign_eq_zero_iff_zero.mp hsign)
  · exact .inr (by rw [← Int.sign_eq_one_iff_pos, hsign, Int.sign_eq_one_iff_pos])

theorem natAbs_tmod_lt (x : Int) {y : Int} (h : y ≠ 0) : (Int.tmod x y).natAbs < y.natAbs := by
  rw [Int.natAbs_tmod]
  exact Nat.mod_lt _ (Int.natAbs_pos.mpr h)

/-- The quotient of two numbers of a signed range is in the range, but for the most negative one divided by -1 (R162). -/
theorem tdiv_mem_range {x y M : Int} (hlo : -M ≤ x) (hhi : x < M) (hne : ¬(x = -M ∧ y = -1)) :
    -M ≤ Int.tdiv x y ∧ Int.tdiv x y < M := by
  have hle := Int.natAbs_tdiv_le_natAbs x y
  refine ⟨by omega, ?_⟩
  by_contra hge
  have hx : x = -M := by omega
  have hq : x.natAbs / y.natAbs = x.natAbs := by
    have : (Int.tdiv x y).natAbs = x.natAbs := by omega
    exact (Int.natAbs_tdiv x y).symm.trans this
  rcases Nat.div_eq_self.mp hq with h0 | h1
  · omega
  · obtain rfl | rfl : y = 1 ∨ y = -1 := by omega
    · rw [Int.tdiv_one] at hge
      omega
    · exact hne ⟨hx, rfl⟩

/-- The signed remainder is smaller than the divisor, so the low field holds it. -/
theorem splice_tmod_lowSigned {a b : Value} {n : Nat} (h1 : 1 ≤ n) (hle : n ≤ a.w) (h0 : b.lowUnsigned n ≠ 0) :
    (splice a (bv n (Int.tmod (a.lowSigned n) (b.lowSigned n)))).lowSigned n =
      Int.tmod (a.lowSigned n) (b.lowSigned n) := by
  have hlt := natAbs_tmod_lt (a.lowSigned n) (mt (b.lowSigned_eq_zero_iff h1).mp h0)
  have hlo := b.le_lowSigned h1
  have hhi := b.lowSigned_lt h1
  exact splice_bv_lowSigned a h1 hle (by omega) (by omega)

/-- The most negative number divided by -1 is congruent to itself (R162). -/
theorem tdiv_overflow_modEq {n : Nat} {x : Int} (h1 : 1 ≤ n) (hx : x = -2 ^ (n - 1)) :
    Int.tdiv x (-1) ≡ x [ZMOD 2 ^ n] := by
  have hpow : (2 : Int) * 2 ^ (n - 1) = 2 ^ n := mul_pow_sub_one (by omega) 2
  rw [Int.tdiv_neg, Int.tdiv_one, Int.modEq_iff_dvd]
  exact ⟨-1, by omega⟩

/-! ### What each sized operation answers with -/

section
variable {st : State} {a b : Value} {size : Option Nat} {n : Nat} (ha : Result.wf st.config (.value a) = true)
  (hb : Result.wf st.config (.value b) = true) (hw : a.w = b.w) (hs : LegalSize a.w size n)
include ha hb hw hs

/-- A binary operation that cannot fail past the validation splices its function of the low fields (R153). -/
theorem binary_answers {i : Instr} {f : (n : Nat) → BitVec n → BitVec n → BitVec n}
    (e : exec i st = answer st [a, b] [] (sizedBinary a b size fun n A B => returnSpliced a (f n A B))) :
    Answers i st (.value (splice a (f n (low a n) (low b n)))) :=
  exec_binary_of_legal e (operands_wf_iff.mpr ⟨ha, hb⟩) hw hs

/-- A division or remainder splices its function of the low fields when the divisor's is not zero (R159). -/
theorem division_answers {i : Instr} {f : (n : Nat) → BitVec n → BitVec n → BitVec n}
    (e : exec i st = answer st [a, b] [] (sizedBinary a b size fun n A B =>
      requireDivisor B (returnSpliced a (f n A B))))
    (h0 : b.lowUnsigned n ≠ 0) : Answers i st (.value (splice a (f n (low a n) (low b n)))) := by
  have h := exec_binary_of_legal e (operands_wf_iff.mpr ⟨ha, hb⟩) hw hs
  rwa [requireDivisor_of_ne (by rwa [unsigned_low])] at h

/-- All four fail by a divisor whose low field is zero (R159). -/
theorem division_fails {mk : Value → Value → Option Nat → Instr} (hmk : mk ∈ divisionOps)
    (h0 : b.lowUnsigned n = 0) : FailsWith (mk a b size) st .divisionByZeroError := by
  obtain ⟨f, e⟩ : ∃ f : (n : Nat) → BitVec n → BitVec n → BitVec n, exec (mk a b size) st = answer st [a, b] []
      (sizedBinary a b size fun n A B => requireDivisor B (returnSpliced a (f n A B))) := by
    simp only [divisionOps, List.mem_cons, List.not_mem_nil, or_false] at hmk
    rcases hmk with rfl | rfl | rfl | rfl <;> exact ⟨_, rfl⟩
  have h := exec_binary_of_legal e (operands_wf_iff.mpr ⟨ha, hb⟩) hw hs
  rwa [requireDivisor_of_eq (by rwa [unsigned_low])] at h

/-- `add` splices the exact sum (R154). -/
theorem add_answers :
    Answers (.add a b size) st (.value (splice a (bv n (a.lowUnsigned n + b.lowUnsigned n : Nat)))) := by
  rw [← unsigned_low, ← unsigned_low]
  exact binary_answers ha hb hw hs (f := fun n A B => bv n (unsigned A + unsigned B)) rfl

/-- `sub` splices the exact difference, the left operand the minuend (R155). -/
theorem sub_answers :
    Answers (.sub a b size) st (.value (splice a (bv n ((a.lowUnsigned n : Int) - b.lowUnsigned n)))) := by
  rw [← unsigned_low, ← unsigned_low]
  exact binary_answers ha hb hw hs (f := fun n A B => bv n (unsigned A - unsigned B)) rfl

/-- `mul` splices the exact product (R156). -/
theorem mul_answers :
    Answers (.mul a b size) st (.value (splice a (bv n (a.lowUnsigned n * b.lowUnsigned n : Nat)))) := by
  rw [← unsigned_low, ← unsigned_low]
  exact binary_answers ha hb hw hs (f := fun n A B => bv n (unsigned A * unsigned B)) rfl

section
variable (h0 : b.lowUnsigned n ≠ 0)
include h0

/-- `udiv` splices the quotient of the unsigned readings (R157). -/
theorem udiv_answers :
    Answers (.udiv a b size) st (.value (splice a (bv n (a.lowUnsigned n / b.lowUnsigned n : Nat)))) := by
  rw [← unsigned_low, ← unsigned_low]
  exact division_answers ha hb hw hs (f := fun n A B => bv n (unsigned A / unsigned B : Nat)) rfl h0

/-- `urem` splices their remainder (R158). -/
theorem urem_answers :
    Answers (.urem a b size) st (.value (splice a (bv n (a.lowUnsigned n % b.lowUnsigned n : Nat)))) := by
  rw [← unsigned_low, ← unsigned_low]
  exact division_answers ha hb hw hs (f := fun n A B => bv n (unsigned A % unsigned B : Nat)) rfl h0

/-- `sdiv` splices the quotient of the signed readings, rounded toward zero (R160). -/
theorem sdiv_answers :
    Answers (.sdiv a b size) st (.value (splice a (bv n (Int.tdiv (a.lowSigned n) (b.lowSigned n))))) := by
  rw [← signed_low a hs.one_le, ← signed_low b hs.one_le]
  exact division_answers ha hb hw hs (f := fun n A B => bv n (tdiv (signed A) (signed B))) rfl h0

/-- `srem` splices the remainder that goes with that quotient (R161). -/
theorem srem_answers :
    Answers (.srem a b size) st (.value (splice a (bv n (Int.tmod (a.lowSigned n) (b.lowSigned n))))) := by
  rw [← signed_low a hs.one_le, ← signed_low b hs.one_le, ← trem_eq_tmod]
  exact division_answers ha hb hw hs (f := fun n A B => bv n (trem (signed A) (signed B))) rfl h0

end

end

section
variable {st : State} {a : Value} {size : Option Nat} {n : Nat} (ha : Result.wf st.config (.value a) = true)
  (hs : LegalSize a.w size n)
include ha hs

/-- A unary sized operation splices its function of the low field (R153). -/
theorem unary_answers {i : Instr} {f : (n : Nat) → BitVec n → BitVec n}
    (e : exec i st = answer st [a] [] (sizedUnary a size fun n A => returnSpliced a (f n A))) :
    Answers i st (.value (splice a (f n (low a n)))) := by
  obtain ⟨hwf, hfits⟩ := Bool.and_eq_true_iff.mp ha
  exact exec_unary_of_legal e hwf hfits hs

/-- `bit_not` splices the complement of the low field (R184). -/
theorem bitNot_answers : Answers (.bitNot a size) st (.value (splice a (~~~low a n))) :=
  unary_answers ha hs (f := fun _ A => ~~~A) rfl

/-- `shift_left` splices the low field shifted left (R191). -/
theorem shiftLeft_answers : Answers (.shiftLeft a size) st (.value (splice a (shiftedLeft (low a n)))) :=
  unary_answers ha hs (f := fun _ A => shiftedLeft A) rfl

/-- `logical_shift_right` splices it shifted right, a zero entering at the top (R192). -/
theorem logicalShiftRight_answers :
    Answers (.logicalShiftRight a size) st (.value (splice a (shiftedRight (low a n)))) :=
  unary_answers ha hs (f := fun _ A => shiftedRight A) rfl

/-- `arithmetic_shift_right` splices it shifted right, its top bit kept (R193). -/
theorem arithmeticShiftRight_answers :
    Answers (.arithmeticShiftRight a size) st (.value (splice a (shiftedRightSigned (low a n)))) :=
  unary_answers ha hs (f := fun _ A => shiftedRightSigned A) rfl

end

/-! ### The bits of the bitwise and shifted fields -/

/-- A binary operation that acts bit by bit on the low fields does so on the operands (43_bitwise.md R180). -/
theorem bitwise_answers {i : Instr} {st : State} {a b : Value} {size : Option Nat} {n : Nat}
    (ha : Result.wf st.config (.value a) = true) (hb : Result.wf st.config (.value b) = true) (hw : a.w = b.w)
    (hs : LegalSize a.w size n) {f : (n : Nat) → BitVec n → BitVec n → BitVec n} {op : Bool → Bool → Bool}
    (e : exec i st = answer st [a, b] [] (sizedBinary a b size fun n A B => returnSpliced a (f n A B)))
    (hf : ∀ (A B : BitVec n) (j : Nat), (f n A B).getLsbD j = op (A.getLsbD j) (B.getLsbD j)) :
    ∃ v : Value, Answers i st (.value v) ∧ KeepsHighBits a v n ∧
      ∀ j, j < n → v.bitAt j = op (a.bitAt j) (b.bitAt j) := by
  have hle := hs.le_width
  refine ⟨_, binary_answers ha hb hw hs e, splice_keepsHighBits a _ hle, fun j hj => ?_⟩
  rw [splice_bitAt_of_lt a _ hle hj, hf, getLsbD_low_of_lt a hj, getLsbD_low_of_lt b hj]

theorem getLsbD_shiftedLeft_zero {n : Nat} (A : BitVec n) : (shiftedLeft A).getLsbD 0 = false := by
  simp [shiftedLeft]

theorem getLsbD_shiftedLeft {n : Nat} (A : BitVec n) {i : Nat} (h1 : 1 ≤ i) (hi : i < n) :
    (shiftedLeft A).getLsbD i = A.getLsbD (i - 1) := by
  rw [shiftedLeft, BitVec.getLsbD_shiftLeft, decide_eq_true hi, decide_eq_false (Nat.not_lt.mpr h1)]
  rfl

theorem getLsbD_shiftedRight {n : Nat} (A : BitVec n) (i : Nat) : (shiftedRight A).getLsbD i = A.getLsbD (i + 1) := by
  rw [shiftedRight, BitVec.getLsbD_ushiftRight, Nat.add_comm]

theorem getLsbD_shiftedRight_top {n : Nat} (A : BitVec n) : (shiftedRight A).getLsbD (n - 1) = false := by
  rw [getLsbD_shiftedRight]
  exact BitVec.getLsbD_of_ge A _ (by omega)

/-- Below the top bit the arithmetic right shift moves bits as the logical one does. -/
theorem getLsbD_shiftedRightSigned {n : Nat} (A : BitVec n) {i : Nat} (hi : i < n - 1) :
    (shiftedRightSigned A).getLsbD i = A.getLsbD (i + 1) := by
  rw [shiftedRightSigned, BitVec.getLsbD_sshiftRight, decide_eq_false (by omega), if_pos (by omega), Nat.add_comm]
  rfl

theorem getLsbD_shiftedRightSigned_top {n : Nat} (A : BitVec n) (h1 : 1 ≤ n) :
    (shiftedRightSigned A).getLsbD (n - 1) = A.getLsbD (n - 1) := by
  rw [shiftedRightSigned, BitVec.getLsbD_sshiftRight, decide_eq_false (by omega), if_neg (by omega),
    BitVec.msb_eq_getLsbD_last]
  rfl

/-- The left shift doubles the unsigned reading modulo 2^n (44_shift.md R191). -/
theorem shiftedLeft_eq_bv {n : Nat} (A : BitVec n) : shiftedLeft A = bv n (unsigned A + unsigned A : Nat) := by
  refine BitVec.eq_of_toNat_eq ?_
  rw [bv_natCast, BitVec.toNat_ofNat, shiftedLeft, BitVec.toNat_shiftLeft, Nat.shiftLeft_eq, pow_one, Nat.mul_two,
    unsigned]

/-! ### The obligations -/

/-- Settles O34: the widths are tested first, then the size, whatever the operation goes on with. -/
theorem sizedOperationsValidateInOrder : Obligations.SizedOperationsValidateInOrder := by
  refine ⟨fun mk hmk st a b size hwf => ?_, fun mk hmk st a n hwf => ?_⟩
  · rw [binary_wf hmk] at hwf
    obtain ⟨ha, hb⟩ := operands_wf_iff.mp hwf
    refine ⟨fun hw => binary_fails_of_width_ne hmk ha hb hw size, ?_⟩
    rintro hw n rfl
    refine ⟨fun hlt => binary_fails_of_size hmk ha hb hw (requireSize_of_gt hlt), ?_⟩
    rintro rfl
    exact binary_fails_of_size hmk ha hb hw (requireSize_zero a.w)
  · rw [unary_wf hmk] at hwf
    have ha := operand_wf_iff.mp hwf
    refine ⟨fun hlt => unary_fails_of_size hmk ha (requireSize_of_gt hlt), ?_⟩
    rintro rfl
    exact unary_fails_of_size hmk ha (requireSize_zero a.w)

/-- Settles O35: every value a sized operation returns is a splice into the left operand. -/
theorem sizedResultsKeepTheHighBits : Obligations.SizedResultsKeepTheHighBits := by
  refine ⟨fun mk hmk st a b v size n hs h => ?_, fun mk hmk st a v size n hs h => ?_⟩
  · obtain ⟨test, f, e⟩ := exec_binaryValue_form hmk
    rw [e] at h
    have hok := sizedBinary_eq_ok hs (eq_ok_of_answer_eq_succeed h)
    obtain ⟨-, hspliced⟩ := require_eq_ok.mp hok
    cases hspliced
    exact splice_keepsHighBits a _ hs.le_width
  · obtain ⟨f, e⟩ := exec_unary_form hmk
    rw [e, sizedUnary_of_legal hs] at h
    cases eq_ok_of_answer_eq_succeed h
    exact splice_keepsHighBits a _ hs.le_width

/-- Settles O36: past the operands' widths, a comparison depends on the two low fields, any other sized operation on the
left operand and the right one's low field. -/
theorem highBitsOfTheRightOperandAreIgnored : Obligations.HighBitsOfTheRightOperandAreIgnored := by
  refine ⟨fun mk hmk st a b b' size n hs hw hbits => ?_, fun mk hmk st a a' b size n hs _ hw hbits => ?_⟩
  · obtain ⟨body, e⟩ := exec_binary_form hmk
    rw [e, e, answer_congr rfl hw, sizedBinary_congr hs rfl hw rfl (low_congr hbits)]
  · obtain ⟨test, e⟩ := exec_relational_form hmk
    rw [e, e, answer_congr hw rfl, sizedBinary_congr hs hw rfl (low_congr hbits) rfl]

/-- Settles O38: each splices the bit-string of its exact integer result. -/
theorem addSubMulWrapAtTheSize : Obligations.AddSubMulWrapAtTheSize := by
  intro st a b size n hwf hw hs
  obtain ⟨ha, hb⟩ := operands_wf_iff.mp hwf
  have hle := hs.le_width
  exact ⟨⟨_, add_answers ha hb hw hs, splice_keepsHighBits a _ hle, splice_bv_natCast_lowUnsigned a hle _⟩,
    ⟨_, sub_answers ha hb hw hs, splice_keepsHighBits a _ hle, splice_bv_lowUnsigned a hle _⟩,
    _, mul_answers ha hb hw hs, splice_keepsHighBits a _ hle, splice_bv_natCast_lowUnsigned a hle _⟩

/-- Settles O40: quotient and remainder are no larger than the dividend, so the low fields hold them. -/
theorem unsignedDivision : Obligations.UnsignedDivision := by
  intro st a b size n hwf hw hs h0
  obtain ⟨ha, hb⟩ := operands_wf_iff.mp hwf
  have hle := hs.le_width
  have hlt := a.lowUnsigned_lt n
  refine ⟨_, _, udiv_answers ha hb hw hs h0, urem_answers ha hb hw hs h0, splice_keepsHighBits a _ hle,
    splice_keepsHighBits a _ hle, ?_⟩
  rw [splice_bv_natCast_lowUnsigned a hle, splice_bv_natCast_lowUnsigned a hle,
    Nat.mod_eq_of_lt ((Nat.div_le_self _ _).trans_lt hlt), Nat.mod_eq_of_lt ((Nat.mod_le _ _).trans_lt hlt)]
  exact ⟨(Nat.div_add_mod _ _).symm, Nat.mod_lt _ (Nat.pos_of_ne_zero h0)⟩

/-- Settles O41: the quotient is the one of the truncating division, and the remainder is small enough to be held. -/
theorem signedDivisionRoundsTowardZero : Obligations.SignedDivisionRoundsTowardZero := by
  intro st a b size n hwf hw hs h0
  obtain ⟨ha, hb⟩ := operands_wf_iff.mp hwf
  have hle := hs.le_width
  refine ⟨_, _, _, sdiv_answers ha hb hw hs h0, srem_answers ha hb hw hs h0, splice_keepsHighBits a _ hle,
    splice_keepsHighBits a _ hle, splice_bv_lowUnsigned a hle _, ?_⟩
  rw [splice_tmod_lowSigned hs.one_le hle h0]
  exact ⟨(Int.mul_tdiv_add_tmod _ _).symm, natAbs_tmod_lt _ (mt (b.lowSigned_eq_zero_iff hs.one_le).mp h0),
    tmod_eq_zero_or_pos_iff _ _⟩

/-- Settles O42: the overflowing quotient 2^(n-1) is congruent to the dividend; every other quotient is in range. -/
theorem signedOverflowWraps : Obligations.SignedOverflowWraps := by
  intro st a b q size n hwf hw hs h0 hq
  obtain ⟨ha, hb⟩ := operands_wf_iff.mp hwf
  have h1 := hs.one_le
  have hle := hs.le_width
  cases hq.unique (sdiv_answers ha hb hw hs h0)
  have hr := srem_answers ha hb hw hs h0
  refine ⟨fun hmin hneg => ⟨?_, _, hr, ?_⟩, fun hne => ⟨_, hr, ?_⟩⟩
  · rw [hneg, bv_of_modEq ((tdiv_overflow_modEq h1 hmin).trans (a.lowSigned_modEq n)), bv_lowUnsigned,
      splice_low_self a hle]
  · rw [hneg, Int.tmod_neg, Int.tmod_one]
    exact splice_bv_natCast_lowUnsigned a hle 0
  · obtain ⟨hlo, hhi⟩ := tdiv_mem_range (a.le_lowSigned h1) (a.lowSigned_lt h1) hne
    rw [splice_bv_lowSigned a h1 hle hlo hhi, splice_tmod_lowSigned h1 hle h0]
    exact (Int.mul_tdiv_add_tmod _ _).symm

/-- Settles O44: the difference is 0, and a field that is not zero divides itself once with remainder 0. -/
theorem sameValueAsBothOperands : Obligations.SameValueAsBothOperands := by
  intro st x size n hwf hfits hs
  have hx : Result.wf st.config (.value x) = true := Bool.and_eq_true_iff.mpr ⟨hwf, hfits⟩
  have h1 := hs.one_le
  have hle := hs.le_width
  have low_one : (splice x (bv n 1)).lowUnsigned n = 1 :=
    (splice_bv_natCast_lowUnsigned x hle 1).trans (Nat.mod_eq_of_lt (Nat.one_lt_two_pow (by omega)))
  have low_zero : (splice x (bv n 0)).lowUnsigned n = 0 := splice_bv_natCast_lowUnsigned x hle 0
  refine ⟨⟨_, sub_answers hx hx rfl hs, ?_⟩, fun h0 mk hmk => division_fails hx hx rfl hs hmk h0, fun h0 =>
    ⟨⟨_, udiv_answers hx hx rfl hs h0, ?_⟩, ⟨_, sdiv_answers hx hx rfl hs h0, ?_⟩,
      ⟨_, urem_answers hx hx rfl hs h0, ?_⟩, _, srem_answers hx hx rfl hs h0, ?_⟩⟩
  · rw [sub_self, low_zero]
  · rw [Nat.div_self (Nat.pos_of_ne_zero h0)]
    exact low_one
  · rw [Int.tdiv_self (mt (x.lowSigned_eq_zero_iff h1).mp h0), low_one]
  · rw [Nat.mod_self]
    exact low_zero
  · rw [Int.tmod_self, low_zero]

/-- Settles O45: each acts bit by bit on the low fields. -/
theorem bitwiseOperationsBitByBit : Obligations.BitwiseOperationsBitByBit := by
  intro st a b size n hwf hs
  obtain ⟨ha, hb⟩ := operands_wf_iff.mp hwf
  have hle := hs.le_width
  refine ⟨fun hw => ⟨bitwise_answers ha hb hw hs (f := fun _ A B => A &&& B) rfl fun _ _ _ => BitVec.getLsbD_and,
    bitwise_answers ha hb hw hs (f := fun _ A B => A ||| B) rfl fun _ _ _ => BitVec.getLsbD_or,
    bitwise_answers ha hb hw hs (f := fun _ A B => A ^^^ B) rfl fun _ _ _ => BitVec.getLsbD_xor⟩,
    _, bitNot_answers ha hs, splice_keepsHighBits a _ hle, fun i hi => ?_⟩
  rw [splice_bitAt_of_lt a _ hle hi, BitVec.getLsbD_not, decide_eq_true hi, Bool.true_and, getLsbD_low_of_lt a hi]

/-- Settles O46: bit i of the result is read off the shifted low field. -/
theorem shiftsMoveOnePosition : Obligations.ShiftsMoveOnePosition := by
  intro st a size n hwf hfits hs
  have ha : Result.wf st.config (.value a) = true := Bool.and_eq_true_iff.mpr ⟨hwf, hfits⟩
  have h1 := hs.one_le
  have hbit (r : BitVec n) {i : Nat} (hi : i < n) := splice_bitAt_of_lt a r hs.le_width hi
  have hlow {i : Nat} (hi : i < n) := getLsbD_low_of_lt a hi
  have hkeep (r : BitVec n) := splice_keepsHighBits a r hs.le_width
  refine ⟨⟨_, shiftLeft_answers ha hs, hkeep _, ?_, fun i hi1 hi => ?_⟩,
    ⟨_, logicalShiftRight_answers ha hs, hkeep _, ?_, fun i hi => ?_⟩,
    _, arithmeticShiftRight_answers ha hs, hkeep _, ?_, fun i hi => ?_⟩
  · rw [hbit _ h1, getLsbD_shiftedLeft_zero]
  · rw [hbit _ hi, getLsbD_shiftedLeft _ hi1 hi, hlow (by omega)]
  · rw [hbit _ (by omega), getLsbD_shiftedRight_top]
  · rw [hbit _ (by omega), getLsbD_shiftedRight, hlow (by omega)]
  · rw [hbit _ (by omega), getLsbD_shiftedRightSigned_top _ h1, hlow (by omega)]
  · rw [hbit _ (by omega), getLsbD_shiftedRightSigned _ hi, hlow (by omega)]

/-- Settles O47: the shifted field is the bit-string of the doubled or halved reading. -/
theorem shiftsDoubleAndHalve : Obligations.ShiftsDoubleAndHalve := by
  intro st a size n hwf hfits hs
  have ha : Result.wf st.config (.value a) = true := Bool.and_eq_true_iff.mpr ⟨hwf, hfits⟩
  have h1 := hs.one_le
  have hle := hs.le_width
  have hleft := shiftLeft_answers ha hs
  have hlogical := logicalShiftRight_answers ha hs
  have harithmetic := arithmeticShiftRight_answers ha hs
  rw [shiftedLeft_eq_bv, unsigned_low] at hleft
  rw [shiftedRight_eq_bv, unsigned_low] at hlogical
  rw [shiftedRightSigned_eq_bv, signed_low a h1] at harithmetic
  refine ⟨hleft.trans (add_answers ha ha rfl hs).symm, ⟨_, hleft, ?_⟩, ⟨_, hlogical, ?_⟩, _, harithmetic, ?_⟩
  · rw [splice_bv_natCast_lowUnsigned a hle, Nat.two_mul]
  · have hlt := a.lowUnsigned_lt n
    rw [splice_bv_natCast_lowUnsigned a hle, Nat.mod_eq_of_lt (by omega)]
  · have hlo := a.le_lowSigned h1
    have hhi := a.lowSigned_lt h1
    exact splice_bv_lowSigned a h1 hle (by omega) (by omega)

end Sys2Proof.Machine
end

section
/-! PROOFS. The statement of 44_shift.md on several positions. -/

namespace Sys2Proof.Machine

/-! ### Chains of requests, each on the previous result (44_shift.md R194) -/

section
variable {st : State} {size : Option Nat} {n : Nat} {f : (n : Nat) → BitVec n → BitVec n}

/-- A unary sized operation that answers has spliced its function of the low field into its operand (R153). -/
theorem eq_splice_of_answers {i : Instr} {a v : Value}
    (e : exec i st = answer st [a] [] (sizedUnary a size fun n A => returnSpliced a (f n A)))
    (hs : LegalSize a.w size n) (h : Answers i st (.value v)) : v = splice a (f n (low a n)) := by
  rw [Answers, e, sizedUnary_of_legal hs] at h
  cases eq_ok_of_answer_eq_succeed h
  rfl

/-- After c requests the width is the first value's and the low field its first content with the function applied c
times. -/
theorem width_low_of_chain {mk : Value → Option Nat → Instr} {x : Nat → Value} {c : Nat}
    (e : ∀ a, exec (mk a size) st = answer st [a] [] (sizedUnary a size fun n A => returnSpliced a (f n A)))
    (hs : LegalSize (x 0).w size n) (h : ∀ j, j < c → Answers (mk (x j) size) st (.value (x (j + 1)))) :
    (x c).w = (x 0).w ∧ low (x c) n = (f n)^[c] (low (x 0) n) := by
  induction c with
  | zero => exact ⟨rfl, rfl⟩
  | succ c ih =>
    obtain ⟨hw, hlow⟩ := ih fun j hj => h j (Nat.lt_succ_of_lt hj)
    have hsc : LegalSize (x c).w size n := hw.symm ▸ hs
    rw [eq_splice_of_answers (e (x c)) hsc (h c c.lt_succ_self)]
    refine ⟨hw, ?_⟩
    rw [low_splice _ _ hsc.le_width, hlow, Function.iterate_succ_apply']

end

/-! ### Shifts by one position, repeated (R191 to R194) -/

section
variable {n : Nat} (A : BitVec n) (c : Nat)

theorem iterate_shiftedLeft : shiftedLeft^[c] A = A <<< c := by
  induction c with
  | zero => exact (BitVec.shiftLeft_zero A).symm
  | succ c ih => rw [Function.iterate_succ_apply', ih, shiftedLeft, BitVec.shiftLeft_add]

theorem iterate_shiftedRight : shiftedRight^[c] A = A >>> c := by
  induction c with
  | zero => exact (BitVec.ushiftRight_zero A).symm
  | succ c ih => rw [Function.iterate_succ_apply', ih, shiftedRight, BitVec.shiftRight_add]

theorem iterate_shiftedRightSigned : shiftedRightSigned^[c] A = A.sshiftRight c := by
  induction c with
  | zero => exact BitVec.sshiftRight_zero.symm
  | succ c ih => rw [Function.iterate_succ_apply', ih, shiftedRightSigned, BitVec.sshiftRight_add]

/-- Shifted right arithmetically by all positions but one or more, a field holds copies of its top bit. -/
theorem getLsbD_sshiftRight_of_le {c : Nat} (hc : n - 1 ≤ c) {i : Nat} (hi : i < n) :
    (A.sshiftRight c).getLsbD i = A.getLsbD (n - 1) := by
  rw [BitVec.getLsbD_sshiftRight, decide_eq_false (by omega), Bool.not_false, Bool.true_and]
  split
  · rw [show c + i = n - 1 by omega]
  · exact A.msb_eq_getLsbD_last

end

/-- A value whose low field is zero reads zero. -/
theorem lowUnsigned_of_low_eq_zero {a : Value} {n : Nat} (h : low a n = 0#n) : a.lowUnsigned n = 0 := by
  rw [← unsigned_low, h, unsigned, BitVec.toNat_zero]

/-! ### The obligation -/

/-- Settles O48: c requests shift the low field by c positions. -/
theorem repeatedShiftsEmptyTheField : Obligations.RepeatedShiftsEmptyTheField := by
  intro st size n c x hs
  refine ⟨fun h hc => lowUnsigned_of_low_eq_zero ?_, fun h hc => lowUnsigned_of_low_eq_zero ?_, fun h hc i hi => ?_⟩
  · obtain ⟨-, hlow⟩ := width_low_of_chain (f := fun _ => shiftedLeft) (fun _ => rfl) hs h
    rw [hlow, iterate_shiftedLeft, BitVec.shiftLeft_eq_zero hc]
  · obtain ⟨-, hlow⟩ := width_low_of_chain (f := fun _ => shiftedRight) (fun _ => rfl) hs h
    rw [hlow, iterate_shiftedRight, BitVec.ushiftRight_eq_zero hc]
  · obtain ⟨-, hlow⟩ := width_low_of_chain (f := fun _ => shiftedRightSigned) (fun _ => rfl) hs h
    have htop : n - 1 < n := Nat.sub_one_lt_of_lt hi
    rw [← getLsbD_low_of_lt _ hi, hlow, iterate_shiftedRightSigned, getLsbD_sshiftRight_of_le _ hc hi,
      getLsbD_low_of_lt _ htop]

end Sys2Proof.Machine
end

section
/-! PROOFS. The statements of 45_relational.md. -/

namespace Sys2Proof.Machine

/-! ### What each comparison answers with (R200) -/

section
variable {i : Instr} {st : State} {a b : Value} {size : Option Nat} {n : Nat}
  (ha : Result.wf st.config (.value a) = true) (hb : Result.wf st.config (.value b) = true) (hw : a.w = b.w)
  (hs : LegalSize a.w size n)
include ha hb hw hs

/-- A comparison answers with its test of the low fields; past the validation it cannot fail. -/
theorem relational_answers {test : (n : Nat) → BitVec n → BitVec n → Bool}
    (e : exec i st = answer st [a, b] [] (sizedBinary a b size fun n A B => returnBool (test n A B))) :
    Answers i st (.bool (test n (low a n) (low b n))) :=
  exec_binary_of_legal e (operands_wf_iff.mpr ⟨ha, hb⟩) hw hs

/-- A test of unsigned readings is one of the operands' unsigned low fields (R203 to R206). -/
theorem unsignedRelational_answers {rel : Nat → Nat → Prop} [DecidableRel rel]
    (e : exec i st = answer st [a, b] [] (sizedBinary a b size fun _ A B =>
      returnBool (decide (rel (unsigned A) (unsigned B))))) :
    Answers i st (.bool (decide (rel (a.lowUnsigned n) (b.lowUnsigned n)))) := by
  rw [← unsigned_low, ← unsigned_low]
  exact relational_answers ha hb hw hs (test := fun _ A B => decide (rel (unsigned A) (unsigned B))) e

/-- A test of signed readings is one of the operands' signed low fields, the sign at bit n - 1 (R207 to R210). -/
theorem signedRelational_answers {rel : Int → Int → Prop} [DecidableRel rel]
    (e : exec i st = answer st [a, b] [] (sizedBinary a b size fun _ A B =>
      returnBool (decide (rel (signed A) (signed B))))) :
    Answers i st (.bool (decide (rel (a.lowSigned n) (b.lowSigned n)))) := by
  rw [← signed_low a hs.one_le, ← signed_low b hs.one_le]
  exact relational_answers ha hb hw hs (test := fun _ A B => decide (rel (signed A) (signed B))) e

end

/-! ### Equality of low fields, bit by bit (R201, R202) -/

theorem low_eq_iff_bits {a b : Value} {n : Nat} : low a n = low b n ↔ ∀ i, i < n → a.bitAt i = b.bitAt i := by
  refine ⟨fun h i hi => ?_, low_congr⟩
  rw [← getLsbD_low_of_lt a hi, h, getLsbD_low_of_lt b hi]

theorem sameBits_low_iff {a b : Value} {n : Nat} :
    sameBits (low a n) (low b n) = true ↔ ∀ i, i < n → a.bitAt i = b.bitAt i :=
  beq_iff_eq.trans low_eq_iff_bits

theorem not_sameBits_low_iff {a b : Value} {n : Nat} :
    (!sameBits (low a n) (low b n)) = true ↔ ∃ i, i < n ∧ a.bitAt i ≠ b.bitAt i := by
  rw [Bool.not_eq_true', ← Bool.not_eq_true, sameBits_low_iff, not_forall]
  exact exists_congr fun _ => Classical.not_imp

/-! ### The obligations -/

/-- Settles O49: `eq` tests the low fields for equality and `neq` negates that; a low field is fixed by its bits. -/
theorem equalityOfTheLowFields : Obligations.EqualityOfTheLowFields := by
  intro st a b size n hwf hw hs
  obtain ⟨ha, hb⟩ := operands_wf_iff.mp hwf
  exact ⟨⟨_, relational_answers ha hb hw hs (test := fun _ A B => sameBits A B) rfl, sameBits_low_iff⟩,
    _, relational_answers ha hb hw hs (test := fun _ A B => !sameBits A B) rfl, not_sameBits_low_iff⟩

/-- Settles O50: each tests the unsigned readings, `ugt` and `uge` with the operands exchanged. -/
theorem unsignedComparisons : Obligations.UnsignedComparisons := by
  intro st a b size n hwf hw hs
  obtain ⟨ha, hb⟩ := operands_wf_iff.mp hwf
  exact ⟨unsignedRelational_answers ha hb hw hs (rel := (· < ·)) rfl,
    unsignedRelational_answers ha hb hw hs (rel := (· ≤ ·)) rfl,
    unsignedRelational_answers ha hb hw hs (rel := (· > ·)) rfl,
    unsignedRelational_answers ha hb hw hs (rel := (· ≥ ·)) rfl⟩

/-- Settles O51: each tests the signed readings, `sgt` and `sge` with the operands exchanged. -/
theorem signedComparisons : Obligations.SignedComparisons := by
  intro st a b size n hwf hw hs
  obtain ⟨ha, hb⟩ := operands_wf_iff.mp hwf
  exact ⟨signedRelational_answers ha hb hw hs (rel := (· < ·)) rfl,
    signedRelational_answers ha hb hw hs (rel := (· ≤ ·)) rfl,
    signedRelational_answers ha hb hw hs (rel := (· > ·)) rfl,
    signedRelational_answers ha hb hw hs (rel := (· ≥ ·)) rfl⟩

end Sys2Proof.Machine
end

section
/-! PROOFS. The statements of 46_laws.md. -/

namespace Sys2Proof.Machine

/-! ### Construction and reading back (R223) -/

/-- The signed reading of `bv_n(k)` is k, for k of the signed range. -/
theorem signed_bv {n : Nat} {k : Int} (h1 : 1 ≤ n) (hlo : -2 ^ (n - 1) ≤ k) (hhi : k < 2 ^ (n - 1)) :
    signed (bv n k) = k := by
  rw [signed_eq_toInt]
  exact BitVec.toInt_ofInt_eq_self h1 hlo hhi

/-- An integer of the band has the bit-string of the negative integer 2^n below it. -/
theorem signed_bv_of_band {n : Nat} {k : Int} (h1 : 1 ≤ n) (hlo : 2 ^ (n - 1) ≤ k) (hhi : k < 2 ^ n) :
    signed (bv n k) = k - 2 ^ n := by
  have hpow : (2 : Int) ^ n = 2 * 2 ^ (n - 1) := (mul_pow_sub_one (by omega) 2).symm
  have hcongr : k ≡ k - 2 ^ n [ZMOD 2 ^ n] := (Int.sub_emod_right k (2 ^ n)).symm
  rw [bv_of_modEq hcongr]
  exact signed_bv h1 (by omega) (by omega)

/-! ### Splicing (R225) -/

/-- A value wider than the operand cannot be spliced into it (40_value.md R115). -/
theorem spliceLow_fails {st : State} {a y : Value} (ha : Result.wf st.config (.value a) = true)
    (hy : Result.wf st.config (.value y) = true) (hlt : a.w < y.w) :
    FailsWith (.spliceLow a y) st .widthMismatchError := by
  have h : exec (.spliceLow a y) st = .next (respond st _) := answer_of_wf _ (operands_wf_iff.mpr ⟨ha, hy⟩)
  rwa [require_of_not (Nat.not_le.mpr hlt)] at h

/-! ### Extension and truncation (R224) -/

/-- A wider bit-string whose low bits are the value's truncates to it. -/
theorem truncate_wide_answers {st : State} {x : Value} {n : Nat} {y : BitVec n}
    (hx : Result.wf st.config (.value x) = true) (hfits : st.config.fits n = true) (hlt : x.w < n)
    (hlow : y.setWidth x.w = x.b) : Answers (.truncate ⟨n, y⟩ x.w) st (.value x) := by
  have h1 : 1 ≤ x.w := of_decide_eq_true (Bool.and_eq_true_iff.mp hx).1
  have h : Answers (.truncate ⟨n, y⟩ x.w) st (.value (truncated ⟨n, y⟩ x.w)) :=
    truncate_answers (value_wf (h1.trans hlt.le) hfits y) h1 hlt
  rwa [truncated_mk hlt.le, hlow] at h

/-! ### The orders of the comparisons (R226) -/

theorem unsigned_injective (n : Nat) : Function.Injective (unsigned (n := n)) := fun _ _ => BitVec.eq_of_toNat_eq

/-- The signed reading has an inverse (40_value.md R108), so it distinguishes bit-strings. -/
theorem signed_injective (n : Nat) : Function.Injective (signed (n := n)) := Function.LeftInverse.injective bv_signed

/-- A reading that distinguishes bit-strings orders them totally, and equality of readings is equality of the bits. -/
theorem exactly_one_of_lt_sameBits_gt {α : Type} [LinearOrder α] {n : Nat} {reading : BitVec n → α}
    (hinj : Function.Injective reading) (A B : BitVec n) :
    (decide (reading A < reading B)).toNat + (sameBits A B).toNat + (decide (reading B < reading A)).toNat = 1 := by
  have hne (h : reading A ≠ reading B) : A ≠ B := fun hAB => h (congrArg reading hAB)
  obtain hlt | heq | hgt := lt_trichotomy (reading A) (reading B)
  · simp [sameBits, hlt, hlt.not_gt, hne hlt.ne]
  · simp [sameBits, hinj heq]
  · simp [sameBits, hgt, hgt.not_gt, hne hgt.ne']

/-- A comparison by such a reading, `eq`, and the comparison of the operands exchanged answer, exactly one true. -/
theorem exactly_one_comparison_true {α : Type} [LinearOrder α] {reading : (n : Nat) → BitVec n → α}
    (hinj : ∀ n, Function.Injective (reading n)) {lt : Value → Value → Option Nat → Instr} {st : State}
    {size : Option Nat} (e : ∀ a b, exec (lt a b size) st = answer st [a, b] [] (sizedBinary a b size fun n A B =>
      returnBool (decide (reading n A < reading n B))))
    {a b : Value} {n : Nat} (ha : Result.wf st.config (.value a) = true) (hb : Result.wf st.config (.value b) = true)
    (hw : a.w = b.w) (hs : LegalSize a.w size n) :
    ∃ p q r : Bool, Answers (lt a b size) st (.bool p) ∧ Answers (.eq a b size) st (.bool q) ∧
      Answers (lt b a size) st (.bool r) ∧ p.toNat + q.toNat + r.toNat = 1 := by
  exact ⟨_, _, _, relational_answers ha hb hw hs (e a b),
    relational_answers ha hb hw hs (test := fun _ A B => sameBits A B) rfl,
    relational_answers hb ha hw.symm (hw ▸ hs) (e b a),
    exactly_one_of_lt_sameBits_gt (hinj n) (low a n) (low b n)⟩

/-- A comparison of values of different widths fails, whatever the size is (45_relational.md R200). -/
theorem relational_fails_of_width_ne {mk : Value → Value → Option Nat → Instr} (h : mk ∈ relationalOps) {st : State}
    {a b : Value} (ha : Result.wf st.config (.value a) = true) (hb : Result.wf st.config (.value b) = true)
    (hw : a.w ≠ b.w) (size : Option Nat) : FailsWith (mk a b size) st .widthMismatchError :=
  binary_fails_of_width_ne (List.mem_append_right binaryValueOps h) ha hb hw size

/-! ### The obligations -/

/-- Settles O22: the signed range is read back as it is, and the band 2^W below. -/
theorem constructionRoundTrip : Obligations.ConstructionRoundTrip := by
  intro st v W h1 hfits
  have hwf : Value.wf ⟨W, bv W v⟩ = true := decide_eq_true h1
  have hsigned : Answers (.asSigned ⟨W, bv W v⟩) st (.int (signed (bv W v))) := exec_valueFunction rfl hwf hfits
  refine ⟨fun hlo hhi => ?_, fun hlo hhi hband => ?_⟩
  · rw [signed_bv h1 hlo hhi] at hsigned
    exact ⟨_, unsigned (bv W v), fromInteger_answers hfits h1 hlo (le_fromIntegerHigh (.inl hhi)), hsigned,
      exec_valueFunction rfl hwf hfits, Nat.le_sub_one_of_lt (bv W v).isLt⟩
  · rw [signed_bv_of_band h1 hlo hhi] at hsigned
    have hlow : -2 ^ (W - 1) ≤ v := by
      have hpos : (0 : Int) < 2 ^ (W - 1) := by positivity
      omega
    exact ⟨_, fromInteger_answers hfits h1 hlow (le_fromIntegerHigh (.inr ⟨hband, hhi⟩)), hsigned⟩

/-- Settles O28: the splice keeps the bits above what is spliced in, behind the test of the widths. -/
theorem spliceLowReplacesTheLowBits : Obligations.SpliceLowReplacesTheLowBits := by
  intro st x y hwf
  obtain ⟨hx, hy⟩ := operands_wf_iff.mp hwf
  refine ⟨fun hle => ⟨splice x y.b, spliceLow_answers hx hy hle, ?_⟩, spliceLow_fails hx hy⟩
  obtain ⟨hw, hhigh⟩ := splice_keepsHighBits x y.b hle
  exact ⟨hw, fun i hi _ => hhigh i hi, fun i hi => splice_bitAt_of_lt x y.b hle hi⟩

/-- Settles O32: both extensions keep the value's bits at the low end. -/
theorem extensionRoundTrip : Obligations.ExtensionRoundTrip := by
  intro st x W2 hwf hlt
  obtain ⟨hx, hfits⟩ := (extension_wf_iff (a := x)).mp hwf
  exact ⟨⟨_, signExtend_answers hx hfits hlt, truncate_wide_answers hx hfits hlt (setWidth_sext hlt.le x.b)⟩,
    _, zeroExtend_answers hx hfits hlt, truncate_wide_answers hx hfits hlt (setWidth_zext hlt.le x.b)⟩

/-- Settles O52: `ult` and `slt` compare readings that distinguish the low fields; the widths are tested before that. -/
theorem comparisonsFormATotalOrder : Obligations.ComparisonsFormATotalOrder := by
  intro st a b size hwf
  obtain ⟨ha, hb⟩ := operands_wf_iff.mp hwf
  refine ⟨fun n hw hs lt hlt => ?_, fun hw => ?_⟩
  · simp only [List.mem_cons, List.not_mem_nil, or_false] at hlt
    obtain rfl | rfl := hlt
    · exact exactly_one_comparison_true unsigned_injective (fun _ _ => rfl) ha hb hw hs
    · exact exactly_one_comparison_true signed_injective (fun _ _ => rfl) ha hb hw hs
  · have hsub : [.ult, .slt] ⊆ relationalOps := by simp [relationalOps]
    exact ⟨relational_fails_of_width_ne (mk := .eq) (by simp [relationalOps]) ha hb hw size, fun lt hlt =>
      ⟨relational_fails_of_width_ne (hsub hlt) ha hb hw size,
        relational_fails_of_width_ne (hsub hlt) hb ha hw.symm size⟩⟩

end Sys2Proof.Machine
end

section
/-! PROOFS. The statements of 60_exceptions.md. -/

namespace Sys2Proof.Machine

/-! ### What a well-formed request offers, and the failures that follow (R258) -/

/-- What answering checks of a constructor: that the width asked for is within WMAX. -/
theorem constructor_wf_iff {c : Config} {n : Nat} : (Instr.zero n).wf c = true ↔ c.fits n = true := by
  simp [Instr.wf, Instr.operands, Instr.askedWidths]

/-- What answering checks of the operands of a binary sized operation. -/
theorem binary_operands_wf {mk : Value → Value → Option Nat → Instr} (hmk : mk ∈ binaryValueOps ++ relationalOps)
    {c : Config} {a b : Value} {size : Option Nat} (h : (mk a b size).wf c = true) :
    Result.wf c (.value a) = true ∧ Result.wf c (.value b) = true :=
  operands_wf_iff.mp (binary_wf hmk c a b size ▸ h)

/-- What answering checks of the operand of a unary sized operation. -/
theorem unary_operand_wf {mk : Value → Option Nat → Instr} (hmk : mk ∈ unarySizedOps) {c : Config} {a : Value}
    {size : Option Nat} (h : (mk a size).wf c = true) : Result.wf c (.value a) = true :=
  operand_wf_iff.mp (unary_wf hmk c a size ▸ h)

/-- An index outside the value fails, of either sign (40_value.md R105). -/
theorem bit_fails {st : State} {a : Value} {k : Int} (ha : Result.wf st.config (.value a) = true)
    (hk : k < 0 ∨ (a.w : Int) ≤ k) : FailsWith (.bit a k) st .indexError := by
  have h : exec (.bit a k) st = .next (respond st _) := answer_of_wf _ (operand_wf_iff.mpr ha)
  rwa [require_of_not (by omega)] at h

/-- Unequal widths and an explicit size above the width fail by one kind, so their order does not show (R252). -/
theorem binary_fails_of_widths {mk : Value → Value → Option Nat → Instr} (h : mk ∈ binaryValueOps ++ relationalOps)
    {st : State} {a b : Value} {size : Option Nat} (ha : Result.wf st.config (.value a) = true)
    (hb : Result.wf st.config (.value b) = true) (hw : a.w ≠ b.w ∨ ∃ n, size = some n ∧ a.w < n) :
    FailsWith (mk a b size) st .widthMismatchError := by
  by_cases heq : a.w = b.w
  · obtain ⟨n, rfl, hlt⟩ := hw.resolve_left (not_not_intro heq)
    exact binary_fails_of_size h ha hb heq (requireSize_of_gt hlt)
  · exact binary_fails_of_width_ne h ha hb heq size

/-! ### What a failing request was answered with -/

/-- A request that is answered was well formed (R258). -/
theorem wf_of_exec_eq_next {i : Instr} {st t : State} (h : exec i st = .next t) : i.wf st.config = true := by
  obtain ⟨r, hr⟩ := exec_eq_answer i
  rw [hr] at h
  obtain ⟨-, e⟩ | ⟨-, -, e⟩ | ⟨hwf, hfits, hasked, -⟩ := answer_cases st i.operands i.askedWidths (r st.config)
  · simp [e] at h
  · simp [e] at h
  · simp only [Instr.wf, hwf, hfits, hasked, Bool.and_self]

/-- A request that fails was answered with the failure it shows. -/
theorem eq_failure_of_exec {i : Instr} {st : State} {r : Response} {k : FailureKind}
    (h : exec i st = .next (raise st k)) (e : exec i st = answer st i.operands i.askedWidths r) : r = .failure k :=
  (next_respond_inj (congrArg Host.Outcome.next (answer_eq_next (e ▸ h)))).symm

/-- A precondition fails by its own kind, or the rest of the rule fails under it. -/
theorem require_decide_eq_failure {p : Prop} [Decidable p] {k k' : FailureKind} {rest : Response}
    (h : require (decide p) k rest = .failure k') : (¬p ∧ k = k') ∨ (p ∧ rest = .failure k') := by
  simpa using require_eq_failure.mp h

/-- With a result behind it, a precondition is the only thing that can fail. -/
theorem require_ok_eq_failure {p : Prop} [Decidable p] {k k' : FailureKind} {r : Result}
    (h : require (decide p) k (.ok r) = .failure k') : ¬p ∧ k = k' := by
  simpa using require_decide_eq_failure h

/-- The size tests fail by an explicit size above the width or 0, or the rest of the rule fails at a legal size (R152).
An omitted size passes both, since no value of the spec has width 0. -/
theorem requireSize_eq_failure {w : Nat} {size : Option Nat} {body : Nat → Response} {k : FailureKind} (hw : 1 ≤ w)
    (h : requireSize w size body = .failure k) :
    (k = .widthMismatchError ∧ ∃ n, size = some n ∧ w < n) ∨ (k = .rangeError ∧ size = some 0) ∨
      ∃ n, LegalSize w size n ∧ body n = .failure k := by
  cases size with
  | none =>
    rw [requireSize_of_legal (legalSize_none hw)] at h
    exact .inr (.inr ⟨w, legalSize_none hw, h⟩)
  | some n =>
    obtain ⟨hgt, rfl⟩ | ⟨hle, h⟩ := require_decide_eq_failure h
    · exact .inl ⟨rfl, n, rfl, Nat.not_le.mp hgt⟩
    · obtain ⟨h0, rfl⟩ | ⟨h1, h⟩ := require_decide_eq_failure h
      · obtain rfl : n = 0 := Nat.lt_one_iff.mp (Nat.not_le.mp h0)
        exact .inr (.inl ⟨rfl, rfl⟩)
      · exact .inr (.inr ⟨n, legalSize_some h1 hle, h⟩)

/-! ### The causes of failure (R242 to R247) -/

/-- Why a request fails with a kind, one constructor per cause that R242 to R247 list. IllegalOp is no operation's
failure (R248). -/
inductive FailureCause (c : Config) (i : Instr) : FailureKind → Prop
  /-- R242 (a) -/
  | zeroWidth (h : i = .zero 0) : FailureCause c i .rangeError
  /-- R242 (a) and (b) -/
  | integerOutOfRange {k : Int} {n : Nat} (h : i = .fromInteger k n)
      (hk : n = 0 ∨ k < -2 ^ (n - 1) ∨ fromIntegerHigh c.band n < k) : FailureCause c i .rangeError
  /-- R242 (a) and (c) -/
  | sequenceTooLong {seq : List Bool} {n : Nat} (h : i = .fromBits seq n) (hn : n = 0 ∨ n < seq.length) :
      FailureCause c i .rangeError
  /-- R242 (d) -/
  | truncateToZero {a : Value} (h : i = .truncate a 0) : FailureCause c i .rangeError
  /-- R242 (e) -/
  | unarySizeZero {mk : Value → Option Nat → Instr} {a : Value} (hmk : mk ∈ unarySizedOps) (h : i = mk a (some 0)) :
      FailureCause c i .rangeError
  /-- R242 (e), past the test of the widths (R252) -/
  | binarySizeZero {mk : Value → Value → Option Nat → Instr} {a b : Value} (hmk : mk ∈ binaryValueOps ++ relationalOps)
      (h : i = mk a b (some 0)) (hw : a.w = b.w) : FailureCause c i .rangeError
  /-- R243 (a) and (b), for a binary sized operation -/
  | binaryWidths {mk : Value → Value → Option Nat → Instr} {a b : Value} {size : Option Nat}
      (hmk : mk ∈ binaryValueOps ++ relationalOps) (h : i = mk a b size)
      (hw : a.w ≠ b.w ∨ ∃ n, size = some n ∧ a.w < n) : FailureCause c i .widthMismatchError
  /-- R243 (b), for a unary one -/
  | unarySizeAboveWidth {mk : Value → Option Nat → Instr} {a : Value} {n : Nat} (hmk : mk ∈ unarySizedOps)
      (h : i = mk a (some n)) (hlt : a.w < n) : FailureCause c i .widthMismatchError
  /-- R243 (c) -/
  | valueLtWidths {a b : Value} (h : i = .valueLt a b) (hw : a.w ≠ b.w) : FailureCause c i .widthMismatchError
  /-- R243 (d) -/
  | spliceTooWide {a b : Value} (h : i = .spliceLow a b) (hlt : a.w < b.w) : FailureCause c i .widthMismatchError
  /-- R244 (a) -/
  | zeroExtendNotWider {a : Value} {n : Nat} (h : i = .zeroExtend a n) (hle : n ≤ a.w) :
      FailureCause c i .directionError
  /-- R244 (a) -/
  | signExtendNotWider {a : Value} {n : Nat} (h : i = .signExtend a n) (hle : n ≤ a.w) :
      FailureCause c i .directionError
  /-- R244 (b) -/
  | truncateNotNarrower {a : Value} {n : Nat} (h : i = .truncate a n) (hle : a.w ≤ n) :
      FailureCause c i .directionError
  /-- R245, past the validation (R252) -/
  | zeroDivisor {mk : Value → Value → Option Nat → Instr} {a b : Value} {size : Option Nat} {n : Nat}
      (hmk : mk ∈ divisionOps) (h : i = mk a b size) (hw : a.w = b.w) (hs : LegalSize a.w size n)
      (h0 : b.lowUnsigned n = 0) : FailureCause c i .divisionByZeroError
  /-- R247 -/
  | indexOutside {a : Value} {k : Int} (h : i = .bit a k) (hk : k < 0 ∨ (a.w : Int) ≤ k) : FailureCause c i .indexError

/-- The divisions and remainders are binary sized operations. -/
theorem divisionOps_subset : divisionOps ⊆ binaryValueOps ++ relationalOps := by
  simp [divisionOps, binaryValueOps]

section
variable {c : Config} {k : FailureKind} {a b : Value} {size : Option Nat} (ha : Result.wf c (.value a) = true)
include ha

/-- A unary sized operation that cannot fail past the validation fails by its size. -/
theorem unarySized_failureCause {mk : Value → Option Nat → Instr} {f : (n : Nat) → BitVec n → BitVec n}
    (hmk : mk ∈ unarySizedOps) (h : (sizedUnary a size fun n A => returnSpliced a (f n A)) = .failure k) :
    FailureCause c (mk a size) k := by
  have hpos : 1 ≤ a.w := of_decide_eq_true (Bool.and_eq_true_iff.mp ha).1
  obtain ⟨rfl, n, rfl, hlt⟩ | ⟨rfl, rfl⟩ | ⟨n, -, hok⟩ := requireSize_eq_failure hpos h
  · exact .unarySizeAboveWidth hmk rfl hlt
  · exact .unarySizeZero hmk rfl
  · cases hok

/-- A binary sized operation fails by its widths, then by its size, then as the rest of its rule does (R252). -/
theorem binarySized_failureCause {mk : Value → Value → Option Nat → Instr}
    {body : (n : Nat) → BitVec n → BitVec n → Response} (hmk : mk ∈ binaryValueOps ++ relationalOps)
    (h : sizedBinary a b size body = .failure k)
    (hrest : ∀ n, a.w = b.w → LegalSize a.w size n → body n (low a n) (low b n) = .failure k →
      FailureCause c (mk a b size) k) : FailureCause c (mk a b size) k := by
  have hpos : 1 ≤ a.w := of_decide_eq_true (Bool.and_eq_true_iff.mp ha).1
  obtain ⟨hw, rfl⟩ | ⟨hw, h⟩ := require_decide_eq_failure h
  · exact .binaryWidths hmk rfl (.inl hw)
  · obtain ⟨rfl, hgt⟩ | ⟨rfl, rfl⟩ | ⟨n, hs, hbody⟩ := requireSize_eq_failure hpos h
    · exact .binaryWidths hmk rfl (.inr hgt)
    · exact .binarySizeZero hmk rfl hw
    · exact hrest n hw hs hbody

/-- A division or remainder fails past the validation by its divisor only (R245). -/
theorem division_failureCause {mk : Value → Value → Option Nat → Instr}
    {f : (n : Nat) → BitVec n → BitVec n → BitVec n} (hmk : mk ∈ divisionOps)
    (h : (sizedBinary a b size fun n A B => requireDivisor B (returnSpliced a (f n A B))) = .failure k) :
    FailureCause c (mk a b size) k := by
  refine binarySized_failureCause ha (divisionOps_subset hmk) h fun n hw hs hbody => ?_
  obtain ⟨h0, rfl⟩ | ⟨-, hok⟩ := require_eq_failure.mp hbody
  · exact .zeroDivisor hmk rfl hw hs (by simpa [unsigned_low] using h0)
  · cases hok

end

/-- Every failure has one of the causes listed. The cases are the operations by the form of their rule: those that
answer with a result only, those with preconditions of their own, and the sized ones by what they go on with. -/
theorem failureCause_of_exec {i : Instr} {st : State} {k : FailureKind} (h : exec i st = .next (raise st k)) :
    FailureCause st.config i k := by
  have hwf := wf_of_exec_eq_next h
  cases i with
  | width | asUnsigned | asSigned | asHex | asBinaryText | copy | valueEq => cases eq_failure_of_exec h rfl
  | zero n =>
    obtain ⟨h0, rfl⟩ := require_ok_eq_failure (eq_failure_of_exec h rfl)
    obtain rfl : n = 0 := Nat.lt_one_iff.mp (Nat.not_le.mp h0)
    exact .zeroWidth rfl
  | fromInteger m n =>
    obtain ⟨h0, rfl⟩ | ⟨h1, hrest⟩ := require_decide_eq_failure (eq_failure_of_exec h rfl)
    · exact .integerOutOfRange rfl (by omega)
    · obtain ⟨hrange, rfl⟩ := require_ok_eq_failure hrest
      exact .integerOutOfRange rfl (by omega)
  | fromBits seq n =>
    obtain ⟨h0, rfl⟩ | ⟨h1, hrest⟩ := require_decide_eq_failure (eq_failure_of_exec h rfl)
    · exact .sequenceTooLong rfl (by omega)
    · obtain ⟨hlen, rfl⟩ := require_ok_eq_failure hrest
      exact .sequenceTooLong rfl (.inr (Nat.not_le.mp hlen))
  | bit a m =>
    obtain ⟨hrange, rfl⟩ := require_ok_eq_failure (eq_failure_of_exec h rfl)
    exact .indexOutside rfl (by omega)
  | spliceLow a b =>
    obtain ⟨hgt, rfl⟩ := require_ok_eq_failure (eq_failure_of_exec h rfl)
    exact .spliceTooWide rfl (Nat.not_le.mp hgt)
  | valueLt a b =>
    obtain ⟨hw, rfl⟩ := require_ok_eq_failure (eq_failure_of_exec h rfl)
    exact .valueLtWidths rfl hw
  | zeroExtend a n =>
    obtain ⟨hle, rfl⟩ := require_ok_eq_failure (eq_failure_of_exec h rfl)
    exact .zeroExtendNotWider rfl (Nat.not_lt.mp hle)
  | signExtend a n =>
    obtain ⟨hle, rfl⟩ := require_ok_eq_failure (eq_failure_of_exec h rfl)
    exact .signExtendNotWider rfl (Nat.not_lt.mp hle)
  | truncate a n =>
    obtain ⟨hge, rfl⟩ | ⟨-, hrest⟩ := require_decide_eq_failure (eq_failure_of_exec h rfl)
    · exact .truncateNotNarrower rfl (Nat.not_lt.mp hge)
    · obtain ⟨h0, rfl⟩ := require_ok_eq_failure hrest
      obtain rfl : n = 0 := Nat.lt_one_iff.mp (Nat.not_le.mp h0)
      exact .truncateToZero rfl
  | bitNot a | shiftLeft a | logicalShiftRight a | arithmeticShiftRight a =>
    exact unarySized_failureCause (operand_wf_iff.mp hwf) (by simp [unarySizedOps]) (eq_failure_of_exec h rfl)
  | udiv a b | urem a b | sdiv a b | srem a b =>
    exact division_failureCause (operands_wf_iff.mp hwf).1 (by simp [divisionOps]) (eq_failure_of_exec h rfl)
  | add a b | sub a b | mul a b | bitAnd a b | bitOr a b | bitXor a b
  | eq a b | neq a b | ult a b | ule a b | ugt a b | uge a b | slt a b | sle a b | sgt a b | sge a b =>
    exact binarySized_failureCause (operands_wf_iff.mp hwf).1 (by simp [binaryValueOps, relationalOps])
      (eq_failure_of_exec h rfl) fun _ _ _ hok => nomatch hok

/-- No operation is answered with IllegalOp (R248). -/
theorem responseOf_exec_ne_illegalOp (i : Instr) (st : State) :
    responseOf (exec i st) ≠ some (.failure .illegalOp) := by
  intro h
  cases e : exec i st with
  | fault _ | refused _ => simp [e, responseOf] at h
  | next t =>
    obtain ⟨r, rfl⟩ := exec_eq_next e
    rw [e] at h
    obtain rfl : r = .failure .illegalOp := Option.some.inj h
    nomatch failureCause_of_exec e

/-! ### The obligations -/

/-- Settles O4: a code of an operation decodes, and no operation has a cause for IllegalOp. -/
theorem illegalOpExactlyForUnassignedCodes : Obligations.IllegalOpExactlyForUnassignedCodes := by
  intro st r rest hp
  refine ⟨fun h o ho => ?_, fun hnone => ?_⟩
  · rw [step_of_decode_ok hp (decode_of_code ho)] at h
    exact responseOf_exec_ne_illegalOp _ _ h
  · rw [step_of_decode_error hp (decode_of_unassigned hnone)]
    rfl

/-- Settles O43: past the validation only a divisor is tested, and only by the four. -/
theorem divisionByZeroExactly : Obligations.DivisionByZeroExactly := by
  intro i st hwf
  constructor
  · intro h
    cases failureCause_of_exec h with
    | zeroDivisor hmk hi hw hs h0 => exact ⟨_, hmk, _, _, _, _, hi, hw, hs, h0⟩
  · rintro ⟨mk, hmk, a, b, size, n, rfl, hw, hs, h0⟩
    obtain ⟨ha, hb⟩ := binary_operands_wf (divisionOps_subset hmk) hwf
    exact division_fails ha hb hw hs hmk h0

/-- Settles O56: the three width changes test the direction first, and nothing else does. -/
theorem directionErrorExactly : Obligations.DirectionErrorExactly := by
  intro i st hwf
  constructor
  · intro h
    cases failureCause_of_exec h with
    | zeroExtendNotWider hi hle => exact ⟨_, _, .inl ⟨hi, hle⟩⟩
    | signExtendNotWider hi hle => exact ⟨_, _, .inr (.inl ⟨hi, hle⟩)⟩
    | truncateNotNarrower hi hle => exact ⟨_, _, .inr (.inr ⟨hi, hle⟩)⟩
  · rintro ⟨a, n, ⟨rfl, hle⟩ | ⟨rfl, hle⟩ | ⟨rfl, hle⟩⟩
    · obtain ⟨ha, hfits⟩ := extension_wf_iff.mp hwf
      exact zeroExtend_fails ha hfits hle
    · obtain ⟨ha, hfits⟩ := extension_wf_iff.mp hwf
      exact signExtend_fails ha hfits hle
    · exact truncate_fails_of_le (operand_wf_iff.mp hwf) hle

/-- Settles O57: `bit` alone tests an index. -/
theorem indexErrorExactly : Obligations.IndexErrorExactly := by
  intro i st hwf
  constructor
  · intro h
    cases failureCause_of_exec h with
    | indexOutside hi hk => exact ⟨_, _, hi, hk⟩
  · rintro ⟨a, k, rfl, hk⟩
    exact bit_fails (operand_wf_iff.mp hwf) hk

/-- Settles O58: the causes of R242, with the range of `from_integer` cut at its high end by the setting. -/
theorem rangeErrorExactly : Obligations.RangeErrorExactly := by
  intro i st hwf
  constructor
  · intro h
    cases failureCause_of_exec h with
    | zeroWidth hi => exact .inl hi
    | integerOutOfRange hi hk =>
      exact .inr (.inl ⟨_, _, hi, hk.imp_right (Or.imp_right (fromIntegerHigh_lt_iff _ _ _).mp)⟩)
    | sequenceTooLong hi hn => exact .inr (.inr (.inl ⟨_, _, hi, hn⟩))
    | truncateToZero hi => exact .inr (.inr (.inr (.inl ⟨_, hi⟩)))
    | unarySizeZero hmk hi => exact .inr (.inr (.inr (.inr (.inl ⟨_, hmk, _, hi⟩))))
    | binarySizeZero hmk hi hw => exact .inr (.inr (.inr (.inr (.inr ⟨_, hmk, _, _, hi, hw⟩))))
  · rintro (rfl | ⟨k, n, rfl, hk⟩ | ⟨seq, n, rfl, hn⟩ | ⟨a, rfl⟩ | ⟨mk, hmk, a, rfl⟩ | ⟨mk, hmk, a, b, rfl, hw⟩)
    · exact zero_fails (constructor_wf_iff.mp hwf) rfl
    · exact fromInteger_fails (constructor_wf_iff.mp hwf)
        (hk.imp_right (Or.imp_right (fromIntegerHigh_lt_iff _ _ _).mpr))
    · exact fromBits_fails (constructor_wf_iff.mp hwf) hn
    · exact truncate_zero_fails (operand_wf_iff.mp hwf)
    · exact unary_fails_of_size hmk (unary_operand_wf hmk hwf) (requireSize_zero a.w)
    · obtain ⟨ha, hb⟩ := binary_operands_wf hmk hwf
      exact binary_fails_of_size hmk ha hb hw (requireSize_zero a.w)

/-- Settles O59: the causes of R243, and `value_eq` has none. -/
theorem widthMismatchErrorExactly : Obligations.WidthMismatchErrorExactly := by
  intro i st hwf
  constructor
  · intro h
    cases failureCause_of_exec h with
    | binaryWidths hmk hi hw => exact .inl ⟨_, hmk, _, _, _, hi, hw⟩
    | unarySizeAboveWidth hmk hi hlt => exact .inr (.inl ⟨_, hmk, _, _, hi, hlt⟩)
    | valueLtWidths hi hw => exact .inr (.inr (.inl ⟨_, _, hi, hw⟩))
    | spliceTooWide hi hlt => exact .inr (.inr (.inr ⟨_, _, hi, hlt⟩))
  · rintro (⟨mk, hmk, a, b, size, rfl, hw⟩ | ⟨mk, hmk, a, n, rfl, hlt⟩ | ⟨a, b, rfl, hw⟩ | ⟨a, b, rfl, hlt⟩)
    · obtain ⟨ha, hb⟩ := binary_operands_wf hmk hwf
      exact binary_fails_of_widths hmk ha hb hw
    · exact unary_fails_of_size hmk (unary_operand_wf hmk hwf) (requireSize_of_gt hlt)
    · obtain ⟨ha, hb⟩ := operands_wf_iff.mp hwf
      exact valueLt_fails ha hb hw
    · obtain ⟨ha, hb⟩ := operands_wf_iff.mp hwf
      exact spliceLow_fails ha hb hlt

end Sys2Proof.Machine
end
